-- ==== Sys2Proof/Word.lean ====
section
/-! DEFINITION. The word types of the core: bytes, 32-bit registers, window indices. -/

namespace Sys2Proof

/-- A byte is 8 bits (R9). -/
abbrev Byte := BitVec 8

/-- A 32-bit register or stream index (R7, R47). -/
abbrev Word := BitVec 32

/-- A window index, 13 bits: arithmetic on it is modulo 8192 (R6, R73). -/
abbrev WinIx := BitVec 13

end Sys2Proof
end

