-- ==== Sys2Proof/Config.lean ====
section
/-! DEFINITION. What is fixed for the machine: the format's constants (R6, R7; log 22), the one open parameter
WINDOW_INIT (R36), and the free values. A free value has no body: nothing can evaluate it, so a statement
holds for every value of it. -/

namespace Sys2Proof.Config

/-- `MAX_READ`, the widest read the reader serves (R6, R131). -/
@[simp] def maxRead : BitVec 5 := 16

/-- `FLAG_W`, the width of the type flag (R6). -/
@[simp] def flagW : BitVec 5 := 1

/-- `LIT_W`, the width of a literal's byte (R6). -/
@[simp] def litW : BitVec 5 := 8

/-- `LEN_W`, the width of the match length field (R6). -/
@[simp] def lenW : BitVec 5 := 4

/-- `OFF_W`, the width of the match offset field (R6). -/
@[simp] def offW : BitVec 5 := 13

/-- `MIN_MATCH`, what is added to raw_length (R6, R105). -/
@[simp] def minMatch : BitVec 5 := 3

/-- `LEN_SENTINEL`, the raw length that is the end token (R6, R102). -/
@[simp] def lenSentinel : BitVec 4 := 15

/-- `HDR_LEN`, the bytes of the header; the payload starts at this index (R6, R113). -/
@[simp] def hdrLen : Word := 8

/-- `WINDOW_SIZE` as a value of FILL (R6, R38). -/
@[simp] def windowSize : BitVec 14 := 8192

/-- The bits of the longest token (R100, format M). -/
@[simp] def longestToken : Nat := 18

/-- `WINDOW_INIT`, the spec's OPEN parameter: what a window cell holds before its first write of a run
(R36, D5; log 1). -/
opaque windowInit : WinIx → Byte

/-- What the host's input memory holds at an index where nothing was placed: DESIGN CHOICE, left open (log 3). -/
opaque inputUnplaced : Nat → Byte

/-- What the host's output memory holds at an index nobody has written: DESIGN CHOICE, left open (log 4). -/
opaque outputUnwritten : Nat → Byte

/-- The k-th drawn byte: an input byte the host changed during the run (R89, D21; log 6). -/
opaque drawByte : Nat → Byte

/-- The k-th drawn choice: whether a host read of the output during a run sees the new byte (R85, D22; log 7). -/
opaque drawNew : Nat → Bool

end Sys2Proof.Config
end

