-- ==== Sys2Proof/Machine/State.lean ====
section
/-! DEFINITION. The state of the core as plain data (10_state.md), the host's actions, the reasons a step can stop,
and the state after hardware reset (R57, R240). -/

namespace Sys2Proof.Machine

/-- The control states of R43. Codes 7..15 are never entered, so they have no constructor (I7; log 23). -/
inductive Ctl where
  /-- 0 IDLE: no run in progress. -/
  | idle
  /-- 1 HDR: run started, header not parsed. -/
  | hdr
  /-- 2 TOK: at a token boundary. -/
  | tok
  /-- 3 LIT: flag 0 read. -/
  | lit
  /-- 4 MLEN: flag 1 read. -/
  | mlen
  /-- 5 MOFF: length read, not the sentinel. -/
  | moff
  /-- 6 COPY: offset valid, bytes left to copy. -/
  | copy
  deriving DecidableEq, Repr

/-- The fatal errors of R210. Each ENDS A RUN WITH A NEXT STATE (R214); none is a stop of the model. -/
inductive FatalError where
  /-- Code 1 (R211). -/
  | malformedHeader
  /-- Code 2 (R212). -/
  | protocolViolation
  /-- Code 3 (R213). -/
  | corruptStream
  deriving DecidableEq, Repr

/-- The width of a register access (R54). -/
inductive AccessWidth where
  | byte
  | half
  | word
  deriving DecidableEq, Repr

/-- What the host does between two visits of the core (R197; log 8). -/
inductive HostEvent where
  /-- The host does nothing: the core makes its next visit. -/
  | coreVisit
  /-- A write to the register at a byte offset (R47). -/
  | regWrite (offset : Nat) (width : AccessWidth) (value : Word)
  /-- A read of the register at a byte offset (R47); the answer appears in regData. -/
  | regRead (offset : Nat) (width : AccessWidth)
  /-- The host places a byte of the input stream (R243). -/
  | inWrite (index : Word) (b : Byte)
  /-- The host writes a byte of its output memory (R248). -/
  | outWrite (index : Word) (b : Byte)
  /-- The host reads a byte of its output memory (R85); the answer appears in outData. -/
  | outRead (index : Word)
  /-- The host provides an output memory of `size` bytes (R197, R243; log 11). DESIGN CHOICE: it holds what the one
  before it held, as the spec does not say what a new one holds (log 26). -/
  | provideOut (size : Nat)
  /-- Hardware reset (R240, R241). -/
  | hwReset
  deriving DecidableEq, Repr

/-- A byte memory: (index, byte) pairs, indices strictly rising; an unlisted index has no value of its own (log 5). -/
abbrev Memory := List Host.Cell

/-- Everything the spec gives the machine (R30 to R57), and the model's own fields at the end. -/
structure State where
  /-- ACC, the bit accumulator (R31). -/
  acc : BitVec 32
  /-- CNT, the valid-bit count (R32). -/
  cnt : BitVec 5
  /-- CURSOR, the index of the next input byte (R33). -/
  cursor : BitVec 32
  /-- IN_LEN, the length of the input stream (R35). -/
  inLen : BitVec 32
  /-- WIN: the cells written since the last START; an unlisted cell p holds WINDOW_INIT(p) (R36, R181). -/
  win : Memory
  /-- WPTR, the write cursor (R37). -/
  wptr : BitVec 13
  /-- FILL, the window writes of this run, saturating (R38). -/
  fill : BitVec 14
  /-- SRC, the copy source position (R42). -/
  src : BitVec 13
  /-- REM, the remaining copy length (R42). -/
  rem : BitVec 5
  /-- DECL_SIZE, the declared size (R40). -/
  declSize : BitVec 32
  /-- OUT_COUNT, the bytes written to the output (R41). -/
  outCount : BitVec 32
  /-- STATE, the control state (R43). -/
  ctl : Ctl
  /-- DONE: a run has ended (R45). -/
  done : Bool
  /-- ERR: the fatal error that ended the run, none for code 0 (R45, R210). -/
  err : Option FatalError
  /-- RESULT_VALID: the run ended with no fatal error (R45). -/
  resultValid : Bool
  /-- UFLOW: a refill went past the end of the input (R45, R135). -/
  uflow : Bool
  /-- SENTINEL: END was decoded (R45, R153). -/
  sentinel : Bool
  /-- TRUNC: a byte was dropped (R45, R150). -/
  trunc : Bool
  /-- PREHIST: a match reached beyond FILL (R45, R165). -/
  prehist : Bool
  /-- UFLOW_COUNT, the substituted bytes (R46). -/
  uflowCount : BitVec 32
  /-- CTRL.IE, the interrupt enable (R48). -/
  ie : Bool
  /-- IN, the host's input memory (R70, R71). -/
  inp : Memory
  /-- OUT, the host's output memory (R70, R72). -/
  out : Memory
  /-- MODEL: the host's actions to come, oldest first; empty: only the core moves (log 8). -/
  inbox : List HostEvent
  /-- MODEL: the input indices the host wrote during the run under way (R89; log 6). -/
  inDirty : List Nat
  /-- MODEL: the output memory as it was at START (R85; log 7). -/
  outBefore : Memory
  /-- MODEL: how many bytes of output memory the host provides (R197; log 11). -/
  outCapacity : Nat
  /-- MODEL: how many free values have been drawn (log 6). -/
  draws : Nat
  /-- MODEL: the word the host's last register read returned (log 20). -/
  regData : BitVec 32
  /-- MODEL: the byte the host's last output read returned (log 20). -/
  outData : BitVec 8
  deriving DecidableEq, Repr

/-- The state after hardware reset (R57, R240): every register 0, STATE = IDLE. The window, the two host memories and
the model's own fields are at the values of log 2, 3, 4, 6, 7, 8, 11 and 20. -/
def State.reset : State where
  acc := 0
  cnt := 0
  cursor := 0
  inLen := 0
  win := []
  wptr := 0
  fill := 0
  src := 0
  rem := 0
  declSize := 0
  outCount := 0
  ctl := .idle
  done := false
  err := none
  resultValid := false
  uflow := false
  sentinel := false
  trunc := false
  prehist := false
  uflowCount := 0
  ie := false
  inp := []
  out := []
  inbox := []
  inDirty := []
  outBefore := []
  outCapacity := 4294967296
  draws := 0
  regData := 0
  outData := 0

/-- The faults. No token raises one. -/
inductive Fault where
  /-- Raised by the host actions outWrite and provideOut while a run is in progress: the host must not touch the output
  memory then (R248; log 13), and the spec gives no outcome. Safe: the model stops where the hardware goes on. -/
  | outputMemoryRace
  deriving DecidableEq, Repr

/-- The refusals. No token raises one. -/
inductive Refusal where
  /-- Raised by an arm of exec whose instruction has no meaning yet. No arm is one. Safe. -/
  | notModelled (mnemonic : String)
  /-- Raised by the host actions regWrite and regRead for an access that is no aligned 32-bit word: it has no meaning
  in the spec and a model refuses it (R54, I9). Safe. -/
  | registerAccessNotAlignedWord
  /-- Raised by the header parse when the host provides fewer than DECL_SIZE bytes of output memory: outside the spec,
  a model refuses the launch (R197, D34, I20). Safe. -/
  | outputMemoryTooSmall
  deriving DecidableEq, Repr

end Sys2Proof.Machine
end

