-- ==== Sys2Proof/Machine/Ops.lean ====
section
/-! DEFINITION. The named operations over memories and registers: byte memories, the ports of 20_memory.md, the bit
reader (40_bitreader.md), byte emission (R150), the ends of a run (R191, R214) and its start (R181). -/

namespace Sys2Proof.Machine

/-! ## Byte memories -/

/-- The byte listed at an index; an unlisted index has none (log 5). -/
def Memory.read? : Memory → Nat → Option Byte
  | [], _ => none
  | (k, b) :: m, a => if a = k then some b else Memory.read? m a

/-- One byte written, the list kept sorted (R79: exactly one byte changes). -/
def Memory.write : Memory → Nat → Byte → Memory
  | [], a, b => [(a, b)]
  | (k, c) :: m, a, b =>
    if a < k then (a, b) :: (k, c) :: m
    else if a = k then (a, b) :: m
    else (k, c) :: Memory.write m a b

/-- The canonical form: indices strictly rising (log 5). -/
def Memory.wf : Memory → Bool
  | [] => true
  | [_] => true
  | (a, _) :: (b, c) :: m => decide (a < b) && Memory.wf ((b, c) :: m)

/-- Bytes placed one after another from an index on. -/
def Memory.writeAll : Memory → Nat → List Byte → Memory
  | m, _, [] => m
  | m, a, b :: bs => Memory.writeAll (Memory.write m a b) (a + 1) bs

/-! ## The four spaces -/

/-- The byte the input memory holds at an index (R71); an unplaced one is open (log 3). -/
def inByte (s : State) (i : Nat) : Byte := (Memory.read? s.inp i).getD (Config.inputUnplaced i)

/-- The byte an output memory holds at an index (R72); an unwritten one is open (log 4). -/
def outByteOf (m : Memory) (i : Nat) : Byte := (Memory.read? m i).getD (Config.outputUnwritten i)

/-- The byte OUT holds at an index. -/
def outByte (s : State) (i : Nat) : Byte := outByteOf s.out i

/-- `InRead(i)` (R71, R80): the byte the host placed before START, or a draw if the host has written that index
during the run (R89; log 6). -/
def inRead (i : Word) (s : State) : Byte × State :=
  if s.inDirty.contains i.toNat then (Config.drawByte s.draws, { s with draws := s.draws + 1 })
  else (inByte s i.toNat, s)

/-- `OutWrite(i, b)` (R72). -/
def outWrite (i : Word) (b : Byte) (s : State) : State := { s with out := Memory.write s.out i.toNat b }

/-- `WIN[p]` (R36, R181): a cell the run has not written holds WINDOW_INIT(p). -/
def winRead (s : State) (p : WinIx) : Byte := (Memory.read? s.win p.toNat).getD (Config.windowInit p)

/-- `WIN[p] <- b` (R73). -/
def winWrite (p : WinIx) (b : Byte) (s : State) : State := { s with win := Memory.write s.win p.toNat b }

/-! ## The end and the start of a run -/

/-- `raise E` (R214): a fatal error ends the run; everything not named keeps its value. -/
def raise (e : FatalError) (s : State) : State :=
  { s with err := some e, resultValid := false, done := true, ctl := .idle }

/-- `finish()` (R191): the run ends normally. There is no return from a fatal error (R218): the way on from either
end is `start`. -/
def finish (s : State) : State := { s with resultValid := true, done := true, ctl := .idle }

/-- `start()` (R181): the start-of-run initialisation. Clearing `win` makes every cell hold WINDOW_INIT again; the
model's own records of the run begin anew (log 6, log 7, log 24). -/
def start (s : State) : State :=
  { s with
    acc := 0, cnt := 0, cursor := 0
    win := [], wptr := 0, fill := 0, src := 0, rem := 0
    declSize := 0, outCount := 0, uflowCount := 0
    done := false, err := none, resultValid := false
    uflow := false, sentinel := false, trunc := false, prehist := false
    ctl := .hdr
    inDirty := [], outBefore := s.out }

/-! ## The bit reader -/

/-- `UFLOW_COUNT + 1`, saturating at 0xFFFFFFFF (R46). -/
def saturatingSucc (w : Word) : Word := if w = 0xFFFFFFFF then w else w + 1

/-- The end of a refill (R132): the byte enters ACC above its valid bits, CNT grows by 8. -/
def loadByte (b : Byte) (s : State) : State :=
  { s with acc := s.acc ||| (b.setWidth 32 <<< s.cnt.toNat), cnt := s.cnt + 8 }

/-- `refill()` (R132), with the underflow of R135: past the end of the input the byte is 0x00, CURSOR stays, UFLOW
and UFLOW_COUNT record it. -/
def refill (s : State) : State :=
  if s.cursor < s.inLen then
    let r := inRead s.cursor s
    loadByte r.1 { r.2 with cursor := s.cursor + 1 }
  else
    loadByte 0x00 { s with uflow := true, uflowCount := saturatingSucc s.uflowCount }

/-- `while CNT < n: refill()` (R133), at most `fuel` times. -/
def refillUntil : Nat → BitVec 5 → State → State
  | 0, _, s => s
  | fuel + 1, n, s => if s.cnt < n then refillUntil fuel n (refill s) else s

/-- `ACC[n-1:0]` as a 16-bit value, 0 for n = 0 (R134). -/
def lowBits (n : BitVec 5) (acc : BitVec 32) : BitVec 16 := BitVec.ofNat 16 (acc.toNat % 2 ^ n.toNat)

/-- The state part of an extraction (R134). -/
def dropBits (n : BitVec 5) (s : State) : State := { s with acc := s.acc >>> n.toNat, cnt := s.cnt - n }

/-- The reader's response (R130): a value, or the error PROTOCOL_VIOLATION. -/
inductive ReadResult where
  | value (v : BitVec 16) (s : State)
  | violation (s : State)
  deriving DecidableEq, Repr

/-- `read_bits(n)` (R133): the width guard changes no state (R131; log 21), then refills, then extraction (R246). Two
refills are enough for every CNT, as n ≤ 16 (R138; log 14). -/
def readBits (n : BitVec 5) (s : State) : ReadResult :=
  if Config.maxRead < n then .violation s
  else
    let s1 := refillUntil 2 n s
    .value (lowBits n s1.acc) (dropBits n s1)

/-- Goes on with the value, or raises PROTOCOL_VIOLATION (R133, R214). -/
def ReadResult.andThen (r : ReadResult) (k : BitVec 16 → State → State) : State :=
  match r with
  | .value v s => k v s
  | .violation s => raise .protocolViolation s

/-! ## Byte emission -/

/-- The window half of `emit(b)` (R150). -/
def pushWindow (b : Byte) (s : State) : State :=
  { winWrite s.wptr b s with
    wptr := s.wptr + 1
    fill := if s.fill < Config.windowSize then s.fill + 1 else Config.windowSize }

/-- The output half of `emit(b)` (R150): within the budget the byte is written, past it it is dropped. -/
def pushOutput (b : Byte) (s : State) : State :=
  if s.outCount < s.declSize then { outWrite s.outCount b s with outCount := s.outCount + 1 }
  else { s with trunc := true }

/-- `emit(b)` (R150). -/
def emit (b : Byte) (s : State) : State := pushOutput b (pushWindow b s)

end Sys2Proof.Machine
end

