-- ==== Sys2Proof/Syntax.lean ====
section
/-! DEFINITION. The instruction set: the token grammar of the payload (R2, R100, R108), one constructor per row of
spec/opcode_table.json. -/

namespace Sys2Proof

/-- A token (R108). The operands are the fields of the encoding as they are read. -/
inductive Instr where
  /-- END, format E (R102, R154). -/
  | endToken
  /-- MATCH with offset 0, the illegal token, format M (R109, R158). -/
  | matchZeroOffset (rawLength : BitVec 4)
  /-- MATCH, format M (R103, R157). -/
  | matchRef (rawLength : BitVec 4) (offset : BitVec 13)
  /-- LIT, format L (R101, R152). -/
  | lit (b : Byte)
  deriving DecidableEq, Repr

end Sys2Proof
end

