-- ==== Sys2Proof/Machine/EndToken.lean ====
section
/-! DEFINITION. END (R154). -/

namespace Sys2Proof.Machine

/-- END (R153, R154), the visit of state MLEN that reads raw_length 15: the 4 bits are consumed, SENTINEL is set, the
run ends normally; no offset is read. -/
def execEndToken (s : State) : Host.Outcome State Fault Refusal :=
  .next ((readBits Config.lenW s).andThen fun _ s1 => finish { s1 with sentinel := true })

end Sys2Proof.Machine
end

