-- ==== Sys2Proof/Machine/Literal.lean ====
section
/-! DEFINITION. LIT (R152). -/

namespace Sys2Proof.Machine

/-- LIT (R152), the visit of state LIT: the 8 literal bits are consumed, the byte is emitted, STATE is TOK. The operand
`b` is the value of those bits (Machine/Fetch.lean). -/
def execLit (b : Byte) (s : State) : Host.Outcome State Fault Refusal :=
  .next ((readBits Config.litW s).andThen fun _ s1 => { emit b s1 with ctl := .tok })

end Sys2Proof.Machine
end

