-- ==== Sys2Proof/Machine/Operands.lean ====
section
/-! DEFINITION. Operand assembly (R104 to R106), the copy's source position, and the header field (R75). -/

namespace Sys2Proof.Machine

/-- `length = raw_length + 3` (R105). -/
def matchLength (rawLength : BitVec 4) : BitVec 5 := rawLength.setWidth 5 + Config.minMatch

/-- The raw_length of the match under way, from REM, which holds the length at the offset step (R153, R155; log 10). -/
def rawLengthOf (rem : BitVec 5) : BitVec 4 := (rem - Config.minMatch).setWidth 4

/-- `(WPTR − offset) mod 8192` (R106, R155). -/
def matchSource (wptr : WinIx) (offset : BitVec 13) : WinIx := wptr - offset

/-- `off > FILL`, the test of a pre-history reference (R165). -/
def beyondHistory (offset : BitVec 13) (fill : BitVec 14) : Bool := fill < offset.setWidth 14

/-- `{b4, b5, b6, b7}`: the declared size, big-endian (R75). -/
def bigEndianWord (b4 b5 b6 b7 : Byte) : Word := b4 ++ b5 ++ b6 ++ b7

end Sys2Proof.Machine
end

