-- ==== Sys2Proof/Machine/Match.lean ====
section
/-! DEFINITION. MATCH and the zero-offset MATCH (R155 to R158), and the back-reference unit's copy (R156). One visit
copies one byte (R8), so a MATCH is its offset visit, which starts the copy, and then `length` COPY visits, which the
machine makes by itself (R157; log 9). -/

namespace Sys2Proof.Machine

/-- The offset step once its 13 bits are consumed (R155): zero raises CORRUPT_STREAM with nothing copied; otherwise
PREHIST if the offset exceeds FILL (R165), SRC, and STATE is COPY. -/
def applyOffset (offset : BitVec 13) (s : State) : State :=
  if offset = 0 then raise .corruptStream s
  else
    { s with
      prehist := s.prehist || beyondHistory offset s.fill
      src := matchSource s.wptr offset
      ctl := .copy }

/-- The offset visit of a format M token with these operands: the 13 bits are consumed, REM holds the length (the
length visit has set it, R153; log 10), and the offset is applied. -/
def offsetVisit (rawLength : BitVec 4) (offset : BitVec 13) (s : State) : State :=
  (readBits Config.offW s).andThen fun _ s1 => applyOffset offset { s1 with rem := matchLength rawLength }

/-- MATCH (R157), the visit of state MOFF that reads an offset ≠ 0. It starts the copy of raw_length + 3 bytes. -/
def execMatchRef (rawLength : BitVec 4) (offset : BitVec 13) (s : State) : Host.Outcome State Fault Refusal :=
  .next (offsetVisit rawLength offset s)

/-- MATCH with offset 0 (R158), the visit of state MOFF that reads offset 0: its effect IS the fatal error
CORRUPT_STREAM (R213, R214). -/
def execMatchZeroOffset (rawLength : BitVec 4) (s : State) : Host.Outcome State Fault Refusal :=
  .next (offsetVisit rawLength 0 s)

/-- The COPY step (R156): WIN[SRC] is read before WIN[WPTR] is written. -/
def copyVisit (s : State) : State :=
  let s1 := emit (winRead s s.src) s
  { s1 with
    src := s.src + 1
    rem := s.rem - 1
    ctl := if s.rem - 1 = 0 then .tok else s1.ctl }

/-- The copy of R157 as one function: `n` bytes from cell `p` on, each read seeing the writes before it (R90). -/
def copyBytes : Nat → WinIx → State → State
  | 0, _, s => s
  | n + 1, p, s => copyBytes n (p + 1) (emit (winRead s p) s)

end Sys2Proof.Machine
end

