-- ==== Sys2Proof/Machine/Dispatch.lean ====
section
/-! DEFINITION. The meaning of each token (spec/opcode_table.json). -/

namespace Sys2Proof.Machine

-- The meaning of a token is the visit that reads its last field (R152, R153, R155; log 9).
def exec (i : Instr) (s : State) : Host.Outcome State Fault Refusal :=
  match i with
  | .endToken => Sys2Proof.Machine.execEndToken s
  | .matchZeroOffset rawLength => Sys2Proof.Machine.execMatchZeroOffset rawLength s
  | .matchRef rawLength offset => Sys2Proof.Machine.execMatchRef rawLength offset s
  | .lit b => Sys2Proof.Machine.execLit b s

end Sys2Proof.Machine
end

