-- ==== Sys2Proof/WellFormed.lean ====
section
/-! DEFINITION. Which terms of Instr are tokens: the operand ranges of the opcode map (R108). -/

namespace Sys2Proof

/-- raw_length is 0..14: 15 is the sentinel, never a length (R103, R105). -/
abbrev rawLengthOk (rawLength : BitVec 4) : Bool := rawLength != 15

/-- offset is 1..8191: 0 is the other row of the table (R106, R109). -/
abbrev offsetOk (offset : BitVec 13) : Bool := offset != 0

/-- The operand ranges of each row of the opcode map (R108). -/
def WellFormed : Instr → Bool
  | .endToken => true
  | .matchZeroOffset rawLength => rawLengthOk rawLength
  | .matchRef rawLength offset => rawLengthOk rawLength && offsetOk offset
  | .lit _ => true

end Sys2Proof
end

