-- ==== Sys2Proof/Decode.lean ====
section
/-! DEFINITION. Bit order of the payload, the field-by-field decoder of the token grammar, and the encoder
(30_encoding.md). The core reads a token one field at a time (R104, R107), so decoding is a walk over stages;
the machine's visits (Machine/Fetch.lean) take the same walk with the bit reader. -/

namespace Sys2Proof

/-! ## Bits and bytes -/

/-- The `n` low bits of `v`, least significant first: the order in which the reader consumes them (R11, R12). -/
def bitsLsb : Nat → Nat → List Bool
  | 0, _ => []
  | n + 1, v => (v % 2 == 1) :: bitsLsb n (v / 2)

/-- The value of a field: its first bit is its least significant bit (R11). -/
def valueLsb : List Bool → Nat
  | [] => 0
  | b :: bs => b.toNat + 2 * valueLsb bs

/-- The payload bit string of some bytes, least significant bit of each byte first (R76). -/
def payloadBits (bytes : List Byte) : List Bool := bytes.flatMap fun b => bitsLsb 8 b.toNat

/-- Packs a bit string into bytes, the first bit lowest; the last byte is padded with 0 bits (R114). -/
def packBits : List Bool → List Byte
  | [] => []
  | b0 :: b1 :: b2 :: b3 :: b4 :: b5 :: b6 :: b7 :: rest =>
    BitVec.ofNat 8 (valueLsb [b0, b1, b2, b3, b4, b5, b6, b7]) :: packBits rest
  | short => [BitVec.ofNat 8 (valueLsb short)]

/-! ## Decoding, one field at a time -/

/-- How far into a token the reader is: which field it reads next (R107). -/
inductive Stage where
  /-- At a token boundary: the type flag. -/
  | flag
  /-- The flag was 0: the literal byte. -/
  | literal
  /-- The flag was 1: the raw length. -/
  | length
  /-- The raw length was read and is not the sentinel: the offset. -/
  | offset (rawLength : BitVec 4)
  deriving DecidableEq, Repr

/-- The width of the field a stage reads: 1, 8, 4 or 13 bits (R104, R137). -/
def Stage.width : Stage → BitVec 5
  | .flag => Config.flagW
  | .literal => Config.litW
  | .length => Config.lenW
  | .offset _ => Config.offW

/-- What one field settles: the next stage, or the whole token. -/
inductive FieldResult where
  | more (next : Stage)
  | token (i : Instr)
  deriving DecidableEq, Repr

/-- The opcode map, field by field (R107, R108): the flag tells LIT from the rest (R151), raw_length 15 is END
(R153), offset 0 is the illegal token (R109). -/
def decodeField (stage : Stage) (v : BitVec 16) : FieldResult :=
  match stage with
  | .flag => if v.setWidth 1 = 0 then .more .literal else .more .length
  | .literal => .token (.lit (v.setWidth 8))
  | .length =>
    if v.setWidth 4 = Config.lenSentinel then .token .endToken else .more (.offset (v.setWidth 4))
  | .offset rawLength =>
    if v.setWidth 13 = (0 : BitVec 13) then .token (.matchZeroOffset rawLength)
    else .token (.matchRef rawLength (v.setWidth 13))

/-- Why some bits are no token. -/
inductive DecodeError where
  /-- There are fewer bits than the field needs. (The core itself never meets this: past the end of its input it
  reads zero bits, R135.) -/
  | truncated
  deriving DecidableEq, Repr

/-- One field of `n` bits off the front of a bit string (R104). -/
def takeField (n : Nat) (bits : List Bool) : Option (BitVec 16 × List Bool) :=
  if bits.length < n then none
  else some (BitVec.ofNat 16 (valueLsb (bits.take n)), bits.drop n)

/-- Reads fields from `stage` on until the token is settled; `fuel` bounds the number of fields (at most three,
R107). -/
def decodeFrom : Nat → Stage → List Bool → Except DecodeError (Instr × List Bool)
  | 0, _, _ => .error .truncated
  | fuel + 1, stage, bits =>
    match takeField stage.width.toNat bits with
    | none => .error .truncated
    | some (v, rest) =>
      match decodeField stage v with
      | .token i => .ok (i, rest)
      | .more next => decodeFrom fuel next rest

/-- The token at the front of a bit string, and the bits after it (R107, R108). -/
def decode (bits : List Bool) : Except DecodeError (Instr × List Bool) := decodeFrom 3 .flag bits

/-- The token that some payload bytes begin with (R76). -/
def decodeBytes (bytes : List Byte) : Except DecodeError (Instr × List Bool) := decode (payloadBits bytes)

/-! ## Encoding -/

/-- The length L of a token in bits (R100). -/
def tokenLength : Instr → Nat
  | .endToken => 5
  | .matchZeroOffset _ => 18
  | .matchRef _ _ => 18
  | .lit _ => 9

/-- The token integer T (R12), from the format layouts of R100 to R103 and the assembler's formulas (R114). -/
def tokenInteger : Instr → Nat
  | .endToken => 0x1F
  | .matchZeroOffset rawLength => 1 + 2 * rawLength.toNat
  | .matchRef rawLength offset => 1 + 2 * rawLength.toNat + 32 * offset.toNat
  | .lit b => 2 * b.toNat

/-- The payload bits of a token, in the order they are consumed (R12). -/
def encode (i : Instr) : List Bool := bitsLsb (tokenLength i) (tokenInteger i)

/-! ## Streams in the spec's assembler notation -/

/-- A line of the notation of R114 after the header lines. -/
inductive AsmLine where
  | lit (b : Byte)
  /-- `MATCH len, off`; off 0 writes the illegal form. -/
  | matchLine (len : Nat) (off : BitVec 13)
  | endLine
  /-- `.bits n, v`. -/
  | bits (n v : Nat)
  deriving DecidableEq, Repr

/-- The payload bits a line emits (R114). -/
def AsmLine.emitted : AsmLine → List Bool
  | .lit b => encode (.lit b)
  | .matchLine len off => encode (.matchRef (BitVec.ofNat 4 (len - 3)) off)
  | .endLine => encode .endToken
  | .bits n v => bitsLsb n v

/-- A word as four bytes, big-endian (R75). -/
def bigEndianBytes (w : Word) : List Byte :=
  [w.extractLsb' 24 8, w.extractLsb' 16 8, w.extractLsb' 8 8, w.extractLsb' 0 8]

/-- The input stream of `.tag tag`, `.size size` and some lines: header, then packed payload (R113, R114). -/
def assemble (tag size : Word) (lines : List AsmLine) : List Byte :=
  bigEndianBytes tag ++ bigEndianBytes size ++ packBits (lines.flatMap AsmLine.emitted)

/-! ## The opcode table's numbering -/

/-- The `n` low bytes of `w`, lowest first: the payload's byte order (R76). -/
def littleEndianBytes : Nat → Nat → List Byte
  | 0, _ => []
  | n + 1, w => BitVec.ofNat 8 w :: littleEndianBytes n (w / 256)

/-- The payload bytes of an instruction whose `nbits` low bits are `w`, every later bit 0, up to the longest token. -/
def tableBytes (nbits w : Nat) : List Byte := littleEndianBytes (max 3 ((nbits + 7) / 8)) (w % 2 ^ nbits)

/-- What the decoder reads from an instruction whose bits are `w`, numbered as the opcode table numbers them: bit 0
is the first bit consumed, so the first payload byte is the lowest (R12, R76; log 16). -/
def decodeTableWord (nbits w : Nat) : Option Instr :=
  match decodeBytes (tableBytes nbits w) with
  | .ok (i, _) => some i
  | .error _ => none

end Sys2Proof
end

