-- ==== Sys2Proof/Machine/RunControl.lean ====
section
/-! DEFINITION. The header parse (R183, R184). -/

namespace Sys2Proof.Machine

/-- `{InRead(4), InRead(5), InRead(6), InRead(7)}` (R75, R184), not through the bit reader. -/
def readHeader (s : State) : Word × State :=
  let r4 := inRead 4 s
  let r5 := inRead 5 r4.2
  let r6 := inRead 6 r5.2
  let r7 := inRead 7 r6.2
  (bigEndianWord r4.1 r5.1 r6.1 r7.1, r7.2)

/-- The HDR step (R183, R184). `none`: the host provides fewer than DECL_SIZE bytes of output memory, a launch the
model refuses (R197, D34; log 11). -/
def headerVisit (s : State) : Option State :=
  if s.inLen < Config.hdrLen then some (raise .malformedHeader s)
  else
    let r := readHeader s
    if r.1.toNat ≤ s.outCapacity then
      some { r.2 with declSize := r.1, cursor := Config.hdrLen, ctl := .tok }
    else none

end Sys2Proof.Machine
end

