-- ==== Sys2Proof/Machine/Fetch.lean ====
section
/-! DEFINITION. Fetching a token field by field, and one visit of the core (R8, R43): what it does by itself, and
which token's meaning it runs. -/

namespace Sys2Proof.Machine

/-- What one visit of the core is. -/
inductive Visit where
  /-- The core's own step. -/
  | moved (s : State)
  /-- The field under the reader completes this token: the visit is the token's meaning. -/
  | run (i : Instr)
  /-- The model refuses. -/
  | refused (r : Refusal)
  deriving DecidableEq, Repr

/-- The stage of decoding a control state stands for (R43, R107). -/
def stageOf (s : State) : Option Stage :=
  match s.ctl with
  | .tok => some .flag
  | .lit => some .literal
  | .mlen => some .length
  | .moff => some (.offset (rawLengthOf s.rem))
  | .idle => none
  | .hdr => none
  | .copy => none

/-- Going on to a stage: the control state, and for the offset stage REM (R151, R153). -/
def enterStage (stage : Stage) (s : State) : State :=
  match stage with
  | .flag => { s with ctl := .tok }
  | .literal => { s with ctl := .lit }
  | .length => { s with ctl := .mlen }
  | .offset rawLength => { s with rem := matchLength rawLength, ctl := .moff }

/-- Reads one field (R104). A field that does not settle the token is consumed here (R151, R153). A field that does
is consumed by the token's meaning, which makes the same read from the same state; here it is only looked at. -/
def fetchField (stage : Stage) (s : State) : Visit :=
  match readBits stage.width s with
  | .violation s1 => .moved (raise .protocolViolation s1)
  | .value v s1 =>
    match decodeField stage v with
    | .more next => .moved (enterStage next s1)
    | .token i => .run i

/-- One visit of the core in its control state (R43): IDLE waits (R43, R226; log 17), HDR parses the header, TOK tests the
size before it reads the type flag (R151, R187), LIT, MLEN and MOFF read their field, COPY copies one byte (R156). -/
def coreVisit (s : State) : Visit :=
  match s.ctl with
  | .idle => .moved s
  | .hdr =>
    match headerVisit s with
    | some t => .moved t
    | none => .refused .outputMemoryTooSmall
  | .tok => if s.declSize ≤ s.outCount then .moved (finish s) else fetchField .flag s
  | .lit => fetchField .literal s
  | .mlen => fetchField .length s
  | .moff => fetchField (.offset (rawLengthOf s.rem)) s
  | .copy => .moved (copyVisit s)

/-! ## Placing one token for the next step -/

/-- A run at its first token boundary, with these payload bytes and the largest declared size (log 15). -/
def atPayload (bytes : List Byte) (s : State) : State :=
  { s with
    inp := Memory.writeAll (Memory.writeAll s.inp 4 [0xFF, 0xFF, 0xFF, 0xFF]) 8 bytes
    inLen := BitVec.ofNat 32 (8 + bytes.length)
    declSize := 0xFFFFFFFF
    cursor := Config.hdrLen, acc := 0, cnt := 0
    ctl := .tok
    inbox := [], inDirty := [] }

/-- Makes the visits that read a token's fields but the last one. -/
def fetchAhead : Nat → State → State
  | 0, s => s
  | fuel + 1, s =>
    match stageOf s with
    | none => s
    | some stage =>
      match fetchField stage s with
      | .moved s1 => fetchAhead fuel s1
      | .run _ => s
      | .refused _ => s

/-- The state whose next visit runs the token that these payload bytes begin with (log 15). -/
def placeToken (bytes : List Byte) (s : State) : State := fetchAhead 2 (atPayload bytes s)

end Sys2Proof.Machine
end

