-- ==== Sys2Proof/Machine/Flags.lean ====
section
/-! DEFINITION. The codes of STATE and ERR, the status word and the other register views (R43 to R55). -/

namespace Sys2Proof.Machine

/-- The 4-bit code of STATE (R43). -/
def ctlCode : Ctl → BitVec 4
  | .idle => 0
  | .hdr => 1
  | .tok => 2
  | .lit => 3
  | .mlen => 4
  | .moff => 5
  | .copy => 6

/-- The 3-bit code of ERR (R49, R210). -/
def errCode : Option FatalError → BitVec 3
  | none => 0
  | some .malformedHeader => 1
  | some .protocolViolation => 2
  | some .corruptStream => 3

/-- BUSY is `STATE ≠ IDLE` (R45). -/
def busy (s : State) : Bool := s.ctl != .idle

/-- `IRQ = CTRL.IE & STATUS.DONE`, a level (R55). -/
def irq (s : State) : Bool := s.ie && s.done

/-- The payload bit position (R44). -/
def tp (s : State) : Int := 8 * ((s.cursor.toNat : Int) - 8) + 8 * (s.uflowCount.toNat : Int) - (s.cnt.toNat : Int)

/-- CTRL as it reads: START reads 0 (R48). -/
def ctrlWord (s : State) : Word := 0#30 ++ BitVec.ofBool s.ie ++ 0#1

/-- STATUS (R49). -/
def statusWord (s : State) : Word :=
  0#22 ++ BitVec.ofBool s.resultValid ++ BitVec.ofBool s.prehist ++ BitVec.ofBool s.trunc ++
    BitVec.ofBool s.sentinel ++ BitVec.ofBool s.uflow ++ errCode s.err ++ BitVec.ofBool s.done ++
    BitVec.ofBool (busy s)

/-- DBG_CTL: CNT at 4:0, REM at 12:8, STATE at 19:16 (R52). -/
def dbgCtlWord (s : State) : Word := 0#12 ++ ctlCode s.ctl ++ 0#3 ++ s.rem ++ 0#3 ++ s.cnt

/-- DBG_WIN: WPTR at 12:0, SRC at 28:16 (R52). -/
def dbgWinWord (s : State) : Word := 0#3 ++ s.src ++ 0#3 ++ s.wptr

/-- DBG_FILL: FILL at 13:0 (R52). -/
def dbgFillWord (s : State) : Word := s.fill.setWidth 32

/-- What the register at an aligned offset reads as (R47 to R53); offsets 0x2C and up read 0. -/
def regValue (s : State) (offset : Nat) : Word :=
  match offset with
  | 0x00 => ctrlWord s
  | 0x04 => statusWord s
  | 0x08 => s.inLen
  | 0x0C => s.declSize
  | 0x10 => s.outCount
  | 0x14 => s.uflowCount
  | 0x18 => s.cursor
  | 0x1C => s.acc
  | 0x20 => dbgCtlWord s
  | 0x24 => dbgWinWord s
  | 0x28 => dbgFillWord s
  | _ => 0

end Sys2Proof.Machine
end

