-- ==== Sys2Proof/Machine/HostPort.lean ====
section
/-! DEFINITION. The host's side: the register port (R47 to R54), START (R180, R182), the host's memories (R85, R89,
R197, R243, R248), hardware reset (R240 to R242), and who moves next. A read of the output memory needs the visits to
come (R85) and stands in OutputRead.lean. -/

namespace Sys2Proof.Machine

/-- Only an aligned 32-bit access is defined (R54; log 12). -/
def alignedWord (offset : Nat) (width : AccessWidth) : Bool := offset % 4 == 0 && width == .word

/-- A write to CTRL: bit 1 sets IE at any time; bit 0 starts a run when IDLE and is ignored while BUSY (R48, R180,
R182). -/
def writeCtrl (v : Word) (s : State) : State :=
  let s1 := { s with ie := v.getLsbD 1 }
  if v.getLsbD 0 && !busy s then start s1 else s1

/-- A write to STATUS: 1 in bit 1 clears DONE, nothing else changes (R49). -/
def writeStatus (v : Word) (s : State) : State := if v.getLsbD 1 then { s with done := false } else s

/-- A write to IN_LEN: ignored while BUSY (R50). -/
def writeInLen (v : Word) (s : State) : State := if busy s then s else { s with inLen := v }

/-- A write to the register at an aligned offset; every other register and offset ignores it (R51, R52, R53). -/
def writeReg (offset : Nat) (v : Word) (s : State) : State :=
  match offset with
  | 0x00 => writeCtrl v s
  | 0x04 => writeStatus v s
  | 0x08 => writeInLen v s
  | _ => s

/-- The host writes an input byte; during a run the index is remembered, and later reads of it are draws (R89). -/
def hostWriteInput (i : Word) (b : Byte) (s : State) : State :=
  let s1 := { s with inp := Memory.write s.inp i.toNat b }
  if busy s && !s.inDirty.contains i.toNat then { s1 with inDirty := i.toNat :: s.inDirty } else s1

/-- Hardware reset: every register at its reset value (R240), also during a run (R241); the host's memories are not
touched (R242), nor are the host's own records. -/
def hardwareReset (s : State) : State :=
  { State.reset with
    inp := s.inp, out := s.out, inbox := s.inbox, outCapacity := s.outCapacity
    draws := s.draws, regData := s.regData, outData := s.outData }

/-- What a host action does (R197), a read of the output memory done by `readOut`. DESIGN CHOICE: a newly provided
output memory keeps the bytes of the one before it, so only its size changes (log 26). -/
def hostActionWith (readOut : Word → State → State) (e : HostEvent) (s : State) : Host.Outcome State Fault Refusal :=
  match e with
  | .coreVisit => .next s
  | .regWrite offset width v =>
    if alignedWord offset width then .next (writeReg offset v s) else .refused .registerAccessNotAlignedWord
  | .regRead offset width =>
    if alignedWord offset width then .next { s with regData := regValue s offset }
    else .refused .registerAccessNotAlignedWord
  | .inWrite i b => .next (hostWriteInput i b s)
  | .outWrite i b => if busy s then .fault .outputMemoryRace else .next (outWrite i b s)
  | .outRead i => .next (readOut i s)
  | .provideOut size => if busy s then .fault .outputMemoryRace else .next { s with outCapacity := size }
  | .hwReset => .next (hardwareReset s)

/-- Who moves next: the oldest host action to come, or the core (log 8). -/
inductive Mover where
  | core (s : State)
  | host (e : HostEvent) (s : State)
  deriving DecidableEq, Repr

/-- Takes the oldest entry off the list of host actions; with none left only the core moves (log 8). -/
def nextMover (s : State) : Mover :=
  match s.inbox with
  | [] => .core s
  | .coreVisit :: rest => .core { s with inbox := rest }
  | e :: rest => .host e { s with inbox := rest }

end Sys2Proof.Machine
end

