-- ==== Sys2Proof/Machine/OutputRead.lean ====
section
/-! DEFINITION. One visit of the core as an outcome, and the host's read of the output memory (R85, D22). While BUSY
such a read returns the byte the run writes at the index, before or after it is written, or the byte that was there
before the run. What the run will write is a function of the state, since the state lists the host actions to come
(R191 to R194, D33; log 7, log 8). -/

namespace Sys2Proof.Machine

/-- One visit of the core (R43): its own step, or the meaning of the token its field completes. -/
def coreStep (s : State) : Host.Outcome State Fault Refusal :=
  match coreVisit s with
  | .moved t => .next t
  | .run i => exec i s
  | .refused r => .refused r

/-- One step (R8, R43): the oldest host action to come if there is one, otherwise one visit of the core (log 8). -/
def stepWith (readOut : Word → State → State) (s : State) : Host.Outcome State Fault Refusal :=
  match nextMover s with
  | .host e s1 => hostActionWith readOut e s1
  | .core s1 => coreStep s1

/-- All that a read of the output changes for the steps after it: while BUSY a draw is taken (log 7). -/
def takeReadDraw (s : State) : State := if busy s then { s with draws := s.draws + 1 } else s

/-- The byte that the run under way writes at index `i` in one of the next `fuel` steps; none where the run has ended
or is cut before that. A read on the way only takes its draw. -/
def byteToCome : Nat → Word → State → Option Byte
  | 0, _, _ => none
  | fuel + 1, i, s =>
    match stepWith (fun _ => takeReadDraw) s with
    | .next t =>
      if busy t then
        if i < t.outCount then some (outByte t i.toNat) else byteToCome fuel i t
      else none
    | .fault _ => none
    | .refused _ => none

/-- A run has no more steps than this: the bound of R194 for the largest DECL_SIZE, and the host actions to come. -/
def stepsAhead (s : State) : Nat := 85899345904 + s.inbox.length

/-- The byte the run under way writes at index `i` (R85): the one it has written, or the one it will write. -/
def byteOfRun (i : Word) (s : State) : Option Byte :=
  if i < s.outCount then some (outByte s i.toNat) else byteToCome (stepsAhead s) i s

/-- The host reads an output byte. While BUSY it gets, as the draw has it, the byte the run writes there or the byte
that was there before the run, which is also what there is where the run writes none (R85, D22, I14; log 7). In IDLE it
gets the byte that is there. -/
def hostReadOutput (i : Word) (s : State) : State :=
  if busy s then
    let before := outByteOf s.outBefore i.toNat
    { takeReadDraw s with
      outData := if Config.drawNew s.draws then (byteOfRun i (takeReadDraw s)).getD before else before }
  else { s with outData := outByte s i.toNat }

/-- What a host action does (R197). -/
def hostAction (e : HostEvent) (s : State) : Host.Outcome State Fault Refusal := hostActionWith hostReadOutput e s

end Sys2Proof.Machine
end

