-- ==== Sys2Proof/Machine/Step.lean ====
section
/-! DEFINITION. One step of the machine (R8): one action of the host, or one visit of the core. -/

namespace Sys2Proof.Machine

/-- One step: the oldest host action to come if there is one, otherwise one visit of the core (R8, R43; log 8). -/
def step (s : State) : Host.Outcome State Fault Refusal := stepWith hostReadOutput s

/-- `s` with the token whose bits are `w` where the next step fetches and runs it (log 15). -/
def State.withFetchWord (s : State) (nbits w : Nat) : State := placeToken (tableBytes nbits w) s

end Sys2Proof.Machine
end

