-- ==== Sys2Proof/Machine/WholeRun.lean ====
section
/-! DEFINITION. The whole run as one function (R186), the clear form that the machine's visits are to agree with. It
adds nothing to the visits (R186: "where it seems to differ, they govern"). -/

namespace Sys2Proof.Machine

/-- The body of the decode loop of R186: one whole token, from one token boundary to the next or to the end of the
run. REM, SRC and STATE are left as the visits leave them. -/
def wholeToken (s : State) : State :=
  (readBits Config.flagW s).andThen fun flag s1 =>
    if flag.setWidth 1 = (0 : BitVec 1) then
      (readBits Config.litW s1).andThen fun b s2 => { emit (b.setWidth 8) s2 with ctl := .tok }
    else
      (readBits Config.lenW s1).andThen fun r s2 =>
        if r.setWidth 4 = Config.lenSentinel then finish { s2 with sentinel := true }
        else
          let length := matchLength (r.setWidth 4)
          (readBits Config.offW s2).andThen fun o s3 =>
            let offset : BitVec 13 := o.setWidth 13
            if offset = 0 then raise .corruptStream { s3 with rem := length }
            else
              let from_ := matchSource s3.wptr offset
              { copyBytes length.toNat from_ { s3 with prehist := s3.prehist || beyondHistory offset s3.fill } with
                src := from_ + length.setWidth 13
                rem := 0
                ctl := .tok }

/-- The decode loop of R186, at most `fuel` times round: `while OUT_COUNT < DECL_SIZE`, then `finish()`; it ends early
where a token ends the run (R187). -/
def decodeLoop : Nat → State → State
  | 0, s => s
  | fuel + 1, s =>
    if s.ctl = .tok then
      if s.outCount < s.declSize then decodeLoop fuel (wholeToken s) else finish s
    else s

end Sys2Proof.Machine
end

