-- ==== Sys2Proof/Safety.lean ====
section
/-! DEFINITION. The terms in which claims about the machine are stated: several steps, the payload bits ahead of the
reader, the invariants of a run, and the history of emitted bytes. -/

namespace Sys2Proof.Machine

/-- `k` steps of the machine, through the host's own runner. -/
def runs (k : Nat) (s : State) : Host.Outcome State Fault Refusal := Host.Core.run Sys2Proof.core k s

/-- No host action is to come: every next step is a visit of the core (log 8). -/
abbrev Quiet (s : State) : Prop := s.inbox = []

/-- `u` is reached from `s` by `k` steps of one run: it has not ended in between, nor in `u`. -/
def DuringRun (k : Nat) (s u : State) : Prop :=
  runs k s = .next u ∧ ∀ j, j ≤ k → ∃ w, runs j s = .next w ∧ w.ctl ≠ .idle

/-- Applies a function to the next state of an outcome. -/
def mapNext (f : State → State) : Host.Outcome State Fault Refusal → Host.Outcome State Fault Refusal
  | .next t => .next (f t)
  | .fault r => .fault r
  | .refused r => .refused r

/-! ## The payload ahead of the reader -/

/-- The j-th bit the reader has not consumed yet: the pending bits of ACC, then the bits of the bytes from CURSOR on,
least significant first, then zero bits (R11, R56, R140). -/
def nextBit (s : State) (j : Nat) : Bool :=
  if j < s.cnt.toNat then s.acc.getLsbD j
  else
    let i := s.cursor.toNat + (j - s.cnt.toNat) / 8
    if i < s.inLen.toNat then (inByte s i).getLsbD ((j - s.cnt.toNat) % 8) else false

/-- The next `n` bits the reader will consume. -/
def nextBits (s : State) (n : Nat) : List Bool := (List.range n).map (nextBit s)

/-! ## Invariants -/

/-- The reader between two reads (R34): CNT ≤ 7 and no 1 bit of ACC at or above CNT. -/
structure ReaderInv (s : State) : Prop where
  cnt_le : s.cnt.toNat ≤ 7
  acc_lt : s.acc.toNat < 2 ^ s.cnt.toNat

/-- What holds of every state the machine can reach: the bounds of 10_state.md and what the status flags say together
(R33, R34, R38, R41, R42, R45, R137, R190, R217). -/
structure RunInv (s : State) : Prop where
  reader : ReaderInv s
  /-- CURSOR never exceeds IN_LEN in a run (R33), and is 8 or more once the header is parsed (R184). -/
  cursor_le : s.ctl ≠ .idle → s.cursor.toNat ≤ s.inLen.toNat
  cursor_ge : s.ctl ≠ .idle → s.ctl ≠ .hdr → 8 ≤ s.cursor.toNat
  /-- FILL is 0..8192 (R38), and equals WPTR until it saturates (R37, R181). -/
  fill_le : s.fill.toNat ≤ 8192
  fill_wptr : s.fill.toNat < 8192 → s.wptr.toNat = s.fill.toNat
  /-- The window cells that hold a byte of the run are the cells below FILL (R181). -/
  win_written : ∀ p : WinIx, (Memory.read? s.win p.toNat).isSome = decide (p.toNat < s.fill.toNat)
  /-- OUT_COUNT is 0..DECL_SIZE (R41). -/
  out_le : s.outCount.toNat ≤ s.declSize.toNat
  /-- REM is 0..17, 3..17 at the offset step, at least 1 while copying (R42, R43, R156). -/
  rem_le : s.rem.toNat ≤ 17
  rem_moff : s.ctl = .moff → 3 ≤ s.rem.toNat
  rem_copy : s.ctl = .copy → 1 ≤ s.rem.toNat
  /-- Inside a token before its last field, the size is not reached (R151). -/
  budget : s.ctl = .lit ∨ s.ctl = .mlen ∨ s.ctl = .moff → s.outCount.toNat < s.declSize.toNat
  /-- Before the header is parsed nothing has been emitted (R181). -/
  fresh : s.ctl = .hdr → s.outCount = 0 ∧ s.declSize = 0 ∧ s.fill = 0 ∧ s.trunc = false
  /-- During a run the end-of-run flags are 0 (R45, R181). -/
  running : s.ctl ≠ .idle → s.done = false ∧ s.err = none ∧ s.resultValid = false ∧ s.sentinel = false
  /-- TRUNC needs OUT_COUNT = DECL_SIZE, SENTINEL needs OUT_COUNT < DECL_SIZE (R150, R154, R217). -/
  trunc_full : s.trunc = true → s.outCount = s.declSize
  sentinel_short : s.sentinel = true → s.outCount.toNat < s.declSize.toNat
  /-- A fatal error leaves no result (R193, R214), and a result is complete unless END was decoded (R190). -/
  err_no_result : s.err.isSome = true → s.resultValid = false
  result_complete : s.resultValid = true → s.sentinel = true ∨ s.outCount = s.declSize
  /-- DONE comes with a result or a fatal error (R191, R214). -/
  done_reports : s.done = true → s.resultValid = true ∨ s.err.isSome = true
  /-- PROTOCOL_VIOLATION cannot occur in the assembled core (R137, R212). -/
  no_violation : s.err ≠ some .protocolViolation
  /-- UFLOW says whether UFLOW_COUNT is not 0 (R45, R46). -/
  uflow_count : s.uflow = true ↔ s.uflowCount ≠ 0

/-- Every memory is in its canonical form (log 5), and the window lists cells 0..8191 only (R36, R73). -/
structure MemoryInv (s : State) : Prop where
  inp_wf : Memory.wf s.inp = true
  out_wf : Memory.wf s.out = true
  before_wf : Memory.wf s.outBefore = true
  win_wf : Memory.wf s.win = true
  win_range : ∀ p, 8192 ≤ p → Memory.read? s.win p = none

/-- During a run the output holds at every index from OUT_COUNT on what it held at START (R72, R84; log 7). -/
def OutBeforeInv (s : State) : Prop :=
  s.ctl ≠ .idle → ∀ i, s.outCount.toNat ≤ i → outByte s i = outByteOf s.outBefore i

/-! ## What a run emits -/

/-- The byte that the next visit of the core passes to `emit`, if any (R152, R156, R164). -/
def emittedBy (s : State) : Option Byte :=
  match s.ctl with
  | .lit =>
    match readBits Config.litW s with
    | .value v _ => some (v.setWidth 8)
    | .violation _ => none
  | .copy => some (winRead s s.src)
  | .idle => none
  | .hdr => none
  | .tok => none
  | .mlen => none
  | .moff => none

/-- `h` is the list of the bytes emitted in this run, the most recent first: the window invariant (R39) and what the
output holds (R166, R188). -/
structure History (s : State) (h : List Byte) : Prop where
  fill_eq : s.fill.toNat = min h.length 8192
  window : ∀ k, k < s.fill.toNat → h[k]? = some (winRead s (s.wptr - BitVec.ofNat 13 (k + 1)))
  beyond : ∀ k, s.fill.toNat ≤ k → k < 8192 →
    winRead s (s.wptr - BitVec.ofNat 13 (k + 1)) = Config.windowInit (s.wptr - BitVec.ofNat 13 (k + 1))
  count : s.outCount.toNat = min h.length s.declSize.toNat
  output : ∀ i, i < s.outCount.toNat → h.reverse[i]? = some (outByte s i)

/-- A state with its reports blanked: UFLOW, UFLOW_COUNT, SENTINEL, TRUNC, PREHIST (R216). -/
def withoutReports (s : State) : State :=
  { s with uflow := false, uflowCount := 0, sentinel := false, trunc := false, prehist := false }

end Sys2Proof.Machine
end

