-- ==== Sys2Proof/Certificates/Slice0/Obligations.lean ====
section
/-! DEFINITION. The statements for the provers, in the order of OBLIGATIONS.json. Each docstring names the rules of
spec/ it formalises; where a clause rests on the model's own choice it names the log entry. -/

open Sys2Proof Sys2Proof.Machine

/-! ## Encoding -/

/-- R100 to R103, R114: the token's own bits decode to it, whatever follows them. -/
def Obligations.DecodeOfEncodeIsTheToken : Prop :=
  ∀ (i : Instr) (rest : List Bool), WellFormed i = true → decode (encode i ++ rest) = .ok (i, rest)

/-- R107, R108, R110: every bit string of 18 bits or more begins with exactly one token, and it is the token's
encoding that it begins with. -/
def Obligations.EveryBitStringBeginsWithOneToken : Prop :=
  ∀ bits : List Bool, 18 ≤ bits.length →
    ∃ i rest, decode bits = .ok (i, rest) ∧ WellFormed i = true ∧ bits = encode i ++ rest ∧
      ∀ j rest', WellFormed j = true → bits = encode j ++ rest' → j = i

/-- R108, the match/mask form over T, rows tried in the order END, zero-offset MATCH, MATCH, LIT. -/
def Obligations.MatchMaskFormOfTheOpcodeMap : Prop :=
  ∀ w : Nat, w < 2 ^ 18 →
    decodeTableWord 24 w = some (
      if w &&& 0x1F = 0x1F then .endToken
      else if w &&& 0x3FFE1 = 0x00001 then .matchZeroOffset (BitVec.ofNat 4 (w / 2))
      else if w &&& 0x00001 = 0x00001 then .matchRef (BitVec.ofNat 4 (w / 2)) (BitVec.ofNat 13 (w / 32))
      else .lit (BitVec.ofNat 8 (w / 2)))

/-- R114, R76: the bytes of a packed bit string read, least significant bit first, as that string with less than a
byte of 0 bits after it. -/
def Obligations.PackedBitsReadBack : Prop :=
  ∀ bits : List Bool, ∃ pad, pad < 8 ∧ payloadBits (packBits bits) = bits ++ List.replicate pad false

/-- R115: the worked encodings decode to their tokens, and LIT 'A', END pack to the bytes 82 3E. -/
def Obligations.WorkedEncodingsDecode : Prop :=
  decodeTableWord 16 0b010000010 = some (.lit 0x41) ∧
  decodeTableWord 8 0b11111 = some .endToken ∧
  decodeTableWord 24 0b000000000001000111 = some (.matchRef 3 2) ∧
  decodeTableWord 24 0x0002F = some (.matchRef 7 1) ∧
  decodeTableWord 24 0x3FFFD = some (.matchRef 14 8191) ∧
  decodeTableWord 24 0x00001 = some (.matchZeroOffset 0) ∧
  packBits (encode (.lit 0x41) ++ encode .endToken) = [0x82, 0x3E]

/-! ## The bit reader -/

/-- R131, R214: a width above 16 is a PROTOCOL_VIOLATION with no state change, and whoever asked ends the run. -/
def Obligations.WideReadIsAViolation : Prop :=
  ∀ (n : BitVec 5) (s : State), 16 < n.toNat →
    readBits n s = .violation s ∧
    ∀ k, (readBits n s).andThen k =
      { s with err := some .protocolViolation, resultValid := false, done := true, ctl := .idle }

/-- R11, R133, R140: a read returns the next n payload bits, the first one lowest and zero bits past the end of the
input, and the bits after them are next. No input byte has been changed during the run. -/
def Obligations.ReadReturnsTheNextPayloadBits : Prop :=
  ∀ (n : BitVec 5) (s : State), n.toNat ≤ 16 → ReaderInv s → s.inDirty = [] →
    ∃ v t, readBits n s = .value v t ∧
      v.toNat = valueLsb (nextBits s n.toNat) ∧
      ∀ j, nextBit t j = nextBit s (n.toNat + j)

/-- R138, with R132 and R135: how many refills a read makes, and what they leave in CNT, CURSOR, UFLOW and
UFLOW_COUNT; from a field boundary at most two, and CNT is 7 or less again. -/
def Obligations.ReadMakesTheRefillsOfItsWidth : Prop :=
  ∀ (n : BitVec 5) (s : State), n.toNat ≤ 16 →
    ∃ v t, readBits n s = .value v t ∧
      let c := s.cnt.toNat
      let r := if n.toNat ≤ c then 0 else (n.toNat - c + 7) / 8
      let real := min r (s.inLen.toNat - s.cursor.toNat)
      t.cnt.toNat = c + 8 * r - n.toNat ∧
      t.cursor.toNat = s.cursor.toNat + real ∧
      t.uflowCount.toNat = min (s.uflowCount.toNat + (r - real)) 0xFFFFFFFF ∧
      t.uflow = (s.uflow || decide (real < r)) ∧
      (c ≤ 7 → r ≤ 2 ∧ t.cnt.toNat ≤ 7)

/-- R34: after the refills of a read CNT is n..n+7 and at most 23, ACC has no 1 bit at or above CNT, so bits 31:23 are
0; after the extraction CNT is 7 or less and ACC is clean again. -/
def Obligations.ReadKeepsTheReaderInvariant : Prop :=
  ∀ (n : BitVec 5) (s : State), n.toNat ≤ 16 → ReaderInv s →
    let filled := refillUntil 2 n s
    (n.toNat ≤ filled.cnt.toNat ∧ filled.cnt.toNat ≤ n.toNat + 7 ∧ filled.cnt.toNat ≤ 23 ∧
      filled.acc.toNat < 2 ^ filled.cnt.toNat ∧ ∀ i, 23 ≤ i → filled.acc.getLsbD i = false) ∧
    ∃ v t, readBits n s = .value v t ∧ ReaderInv t

/-- R136: a read changes ACC, CNT, CURSOR, UFLOW and UFLOW_COUNT and nothing else of the machine (and the model's draw
counter, log 6). -/
def Obligations.ReadHasNoOtherEffect : Prop :=
  ∀ (n : BitVec 5) (s t : State) (v : BitVec 16), readBits n s = .value v t →
    t = { s with
      acc := t.acc, cnt := t.cnt, cursor := t.cursor, uflow := t.uflow, uflowCount := t.uflowCount
      draws := t.draws }

/-- R44: a token advances the payload bit position by its length. -/
def Obligations.TokenAdvancesThePositionByItsLength : Prop :=
  ∀ (s : State) (i : Instr) (rest : List Bool), ReaderInv s → s.inDirty = [] →
    decode (nextBits s 18) = .ok (i, rest) →
    (wholeToken s).uflowCount ≠ 0xFFFFFFFF →
    tp (wholeToken s) = tp s + (tokenLength i : Int)

/-! ## Emission and the tokens -/

/-- R150: what `emit` writes, and that it writes nothing else. -/
def Obligations.EmitWritesOneByte : Prop :=
  ∀ (b : Byte) (s : State),
    let t := emit b s
    (∀ p, winRead t p = if p = s.wptr then b else winRead s p) ∧
    t.wptr.toNat = (s.wptr.toNat + 1) % 8192 ∧
    t.fill.toNat = min (s.fill.toNat + 1) 8192 ∧
    (s.outCount.toNat < s.declSize.toNat →
      (∀ i, outByte t i = if i = s.outCount.toNat then b else outByte s i) ∧
      t.outCount.toNat = s.outCount.toNat + 1 ∧ t.trunc = s.trunc) ∧
    (s.declSize.toNat ≤ s.outCount.toNat →
      (∀ i, outByte t i = outByte s i) ∧ t.outCount = s.outCount ∧ t.trunc = true) ∧
    t = { s with
      win := t.win, wptr := t.wptr, fill := t.fill, out := t.out, outCount := t.outCount, trunc := t.trunc }

/-- R152: LIT consumes 8 bits, emits its byte and goes to TOK. -/
def Obligations.LitEmitsItsByte : Prop :=
  ∀ (b : Byte) (s : State), ∃ v s1 t,
    readBits 8 s = .value v s1 ∧ exec (.lit b) s = .next t ∧
    t.ctl = .tok ∧
    winRead t s.wptr = b ∧ t.wptr.toNat = (s.wptr.toNat + 1) % 8192 ∧
    t.fill.toNat = min (s.fill.toNat + 1) 8192 ∧
    (s.outCount.toNat < s.declSize.toNat →
      outByte t s.outCount.toNat = b ∧ t.outCount.toNat = s.outCount.toNat + 1 ∧ t.trunc = s.trunc) ∧
    (s.declSize.toNat ≤ s.outCount.toNat → t.outCount = s.outCount ∧ t.trunc = true) ∧
    t.acc = s1.acc ∧ t.cnt = s1.cnt ∧ t.cursor = s1.cursor ∧ t.uflow = s1.uflow ∧ t.uflowCount = s1.uflowCount

/-- The frame of LIT (R136, R150, R152): every register, flag and memory byte it does not write is unchanged. The
stored bytes are WIN[WPTR] and, within the budget, OUT[OUT_COUNT]. -/
def Obligations.LitFrame : Prop :=
  ∀ (b : Byte) (s t : State), exec (.lit b) s = .next t →
    (∀ p, p ≠ s.wptr → winRead t p = winRead s p) ∧
    (∀ i, i ≠ s.outCount.toNat → outByte t i = outByte s i) ∧
    (s.declSize.toNat ≤ s.outCount.toNat → ∀ i, outByte t i = outByte s i) ∧
    (∀ i, inByte t i = inByte s i) ∧
    t = { s with
      acc := t.acc, cnt := t.cnt, cursor := t.cursor, uflow := t.uflow, uflowCount := t.uflowCount
      win := t.win, wptr := t.wptr, fill := t.fill, out := t.out, outCount := t.outCount, trunc := t.trunc
      ctl := t.ctl, draws := t.draws }

/-- R153, R154, R191: END consumes its 4 length bits, sets SENTINEL and ends the run normally. -/
def Obligations.EndEndsTheRun : Prop :=
  ∀ s : State, ∃ v s1, readBits 4 s = .value v s1 ∧
    exec .endToken s = .next { s1 with sentinel := true, resultValid := true, done := true, ctl := .idle }

/-- R158, R213, R214: MATCH with offset 0 consumes its 13 offset bits, copies nothing and ends the run with
CORRUPT_STREAM. REM is the token's length (the length visit set it; log 10). -/
def Obligations.ZeroOffsetRaisesCorruptStream : Prop :=
  ∀ (raw : BitVec 4) (s : State), ∃ v s1, readBits 13 s = .value v s1 ∧
    exec (.matchZeroOffset raw) s = .next { s1 with
      rem := matchLength raw
      err := some .corruptStream, resultValid := false, done := true, ctl := .idle }

/-- R155, R165, R105, R106: MATCH consumes its 13 offset bits, flags a pre-history reference, sets SRC to
(WPTR − offset) mod 8192 and starts the copy of raw_length + 3 bytes. -/
def Obligations.MatchStartsTheCopy : Prop :=
  ∀ (raw : BitVec 4) (off : BitVec 13) (s : State), off ≠ 0 → ∃ v s1 t,
    readBits 13 s = .value v s1 ∧ exec (.matchRef raw off) s = .next t ∧
    t.src.toNat = (s.wptr.toNat + 8192 - off.toNat) % 8192 ∧
    t.rem.toNat = raw.toNat + 3 ∧
    t.prehist = (s.prehist || decide (s.fill.toNat < off.toNat)) ∧
    t.ctl = .copy ∧
    t = { s1 with src := t.src, rem := t.rem, prehist := t.prehist, ctl := t.ctl }

/-- The frame of END, MATCH with offset 0 and MATCH (their own visit; R136, R154, R155, R158): they store nothing, and
change no register but the reader's and the ones named. SRC and PREHIST are MATCH's, SENTINEL is END's, ERR, DONE and
RESULT_VALID are those of the two that end the run. -/
def Obligations.RegisterTokensFrame : Prop :=
  ∀ (i : Instr) (s t : State), (∀ b, i ≠ .lit b) → WellFormed i = true → exec i s = .next t →
    (∀ p, winRead t p = winRead s p) ∧ (∀ k, outByte t k = outByte s k) ∧ (∀ k, inByte t k = inByte s k) ∧
    t = { s with
      acc := t.acc, cnt := t.cnt, cursor := t.cursor, uflow := t.uflow, uflowCount := t.uflowCount
      draws := t.draws, ctl := t.ctl, src := t.src, rem := t.rem, prehist := t.prehist
      sentinel := t.sentinel, done := t.done, err := t.err, resultValid := t.resultValid } ∧
    (i = .endToken → t.rem = s.rem ∧ t.src = s.src ∧ t.prehist = s.prehist ∧ t.err = s.err) ∧
    (∀ raw, i = .matchZeroOffset raw → t.src = s.src ∧ t.prehist = s.prehist ∧ t.sentinel = s.sentinel) ∧
    (∀ raw off, i = .matchRef raw off →
      t.sentinel = s.sentinel ∧ t.done = s.done ∧ t.err = s.err ∧ t.resultValid = s.resultValid)

/-- R156: the COPY step, with its frame. WIN[SRC] is read before WIN[WPTR] is written. -/
def Obligations.CopyVisitCopiesOneByte : Prop :=
  ∀ s s0 : State, nextMover s = .core s0 → s0.ctl = .copy → ∃ t, step s = .next t ∧
    (∀ p, winRead t p = if p = s0.wptr then winRead s0 s0.src else winRead s0 p) ∧
    t.wptr.toNat = (s0.wptr.toNat + 1) % 8192 ∧ t.src.toNat = (s0.src.toNat + 1) % 8192 ∧
    t.rem = s0.rem - 1 ∧ t.ctl = (if s0.rem = 1 then .tok else .copy) ∧
    t.fill.toNat = min (s0.fill.toNat + 1) 8192 ∧
    (s0.outCount.toNat < s0.declSize.toNat →
      (∀ i, outByte t i = if i = s0.outCount.toNat then winRead s0 s0.src else outByte s0 i) ∧
      t.outCount.toNat = s0.outCount.toNat + 1 ∧ t.trunc = s0.trunc) ∧
    (s0.declSize.toNat ≤ s0.outCount.toNat →
      (∀ i, outByte t i = outByte s0 i) ∧ t.outCount = s0.outCount ∧ t.trunc = true) ∧
    t = { s0 with
      win := t.win, wptr := t.wptr, fill := t.fill, out := t.out, outCount := t.outCount, trunc := t.trunc
      src := t.src, rem := t.rem, ctl := t.ctl }

/-- R157: MATCH as one function. Its own visit answers a next state, and the raw_length + 3 visits after it make the
copy of R157 and stand at the next token boundary. -/
def Obligations.MatchCopiesItsWholeLength : Prop :=
  ∀ (raw : BitVec 4) (off : BitVec 13) (s : State), WellFormed (.matchRef raw off) = true → Quiet s →
    ∃ t, exec (.matchRef raw off) s = .next t ∧
      runs (raw.toNat + 3) t = .next { copyBytes (raw.toNat + 3) (s.wptr - off) t with
        src := s.wptr - off + BitVec.ofNat 13 (raw.toNat + 3)
        rem := 0
        ctl := .tok }

/-- R159, R160: byte i of a match is byte (i mod offset) of the block at its source, also where source or destination
wraps at cell 8191. -/
def Obligations.OverlappingMatchRepeatsItsBlock : Prop :=
  ∀ (raw : BitVec 4) (off : BitVec 13) (s : State), WellFormed (.matchRef raw off) = true → Quiet s →
    ∃ t u, exec (.matchRef raw off) s = .next t ∧ runs (raw.toNat + 3) t = .next u ∧
      ∀ i, i < raw.toNat + 3 →
        winRead u (s.wptr + BitVec.ofNat 13 i) =
          winRead s (s.wptr - off + BitVec.ofNat 13 (i % off.toNat))

/-- R162, R150: a match is never cut short. All its bytes reach the window and WPTR advances by its length; the output
gets the bytes within the budget, the rest are dropped and set TRUNC. -/
def Obligations.MatchIsNeverCutShort : Prop :=
  ∀ (raw : BitVec 4) (off : BitVec 13) (s : State), WellFormed (.matchRef raw off) = true → Quiet s →
    s.outCount.toNat ≤ s.declSize.toNat →
    ∃ t u, exec (.matchRef raw off) s = .next t ∧ runs (raw.toNat + 3) t = .next u ∧
      u.ctl = .tok ∧
      u.wptr.toNat = (s.wptr.toNat + (raw.toNat + 3)) % 8192 ∧
      u.fill.toNat = min (s.fill.toNat + (raw.toNat + 3)) 8192 ∧
      u.outCount.toNat = min (s.outCount.toNat + (raw.toNat + 3)) s.declSize.toNat ∧
      u.trunc = (s.trunc || decide (s.declSize.toNat < s.outCount.toNat + (raw.toNat + 3))) ∧
      (∀ i, i < raw.toNat + 3 → s.outCount.toNat + i < s.declSize.toNat →
        outByte u (s.outCount.toNat + i) = winRead u (s.wptr + BitVec.ofNat 13 i)) ∧
      (∀ i, i < s.outCount.toNat ∨ u.outCount.toNat ≤ i → outByte u i = outByte s i)

/-- R161: all through a match the write cursor is `offset` cells ahead of the source, so the two never meet. -/
def Obligations.SourceTrailsByTheOffset : Prop :=
  ∀ (raw : BitVec 4) (off : BitVec 13) (s t : State) (k : Nat),
    WellFormed (.matchRef raw off) = true → Quiet s → exec (.matchRef raw off) s = .next t →
    k ≤ raw.toNat + 3 →
    ∃ u, runs k t = .next u ∧ (u.wptr.toNat + 8192 - u.src.toNat) % 8192 = off.toNat ∧ u.src ≠ u.wptr

/-- No token stops the model, and a visit of the core stops only where the host provides too little output memory
(R197, D34; log 11). -/
def Obligations.NoTokenStops : Prop :=
  (∀ (i : Instr) (s : State), ∃ t, exec i s = .next t) ∧
  ∀ s s0 : State, nextMover s = .core s0 →
    (∃ t, step s = .next t) ∨
    (s0.ctl = .hdr ∧ 8 ≤ s0.inLen.toNat ∧ s0.outCapacity < (readHeader s0).1.toNat ∧
      step s = .refused .outputMemoryTooSmall)

/-! ## Fetch and dispatch -/

/-- When the field under the reader completes the token i, a step is exec of i at the state the core moves from: s
itself, or s with the host's `coreVisit` entry taken off its list (log 8, log 9). -/
def Obligations.StepRunsTheDecodedToken : Prop :=
  ∀ (s s0 s1 : State) (stage : Stage) (v : BitVec 16) (i : Instr),
    nextMover s = .core s0 → stageOf s0 = some stage →
    (s0.ctl = .tok → s0.outCount.toNat < s0.declSize.toNat) →
    readBits stage.width s0 = .value v s1 → decodeField stage v = .token i →
    step s = exec i s0

/-- R107, R140, R163: at a token boundary the machine runs the token that the payload bits ahead decode to. It reads
the fields before the last in one or two visits, the next step is exec of the token, and after it the reader stands
right behind the token. -/
def Obligations.MachineRunsTheTokenOfThePayload : Prop :=
  ∀ (s : State) (i : Instr) (rest : List Bool),
    Quiet s → s.ctl = .tok → s.outCount.toNat < s.declSize.toNat → ReaderInv s → s.inDirty = [] →
    decode (nextBits s 18) = .ok (i, rest) →
    ∃ k s1 t, 1 ≤ k ∧ k ≤ 2 ∧ runs k s = .next s1 ∧ step s1 = exec i s1 ∧ exec i s1 = .next t ∧
      (∀ j, nextBit t j = nextBit s (tokenLength i + j)) ∧
      s1 = { s with
        acc := s1.acc, cnt := s1.cnt, cursor := s1.cursor, uflow := s1.uflow, uflowCount := s1.uflowCount
        rem := s1.rem, ctl := s1.ctl }

/-- R151: the TOK step: the size test first, then the type flag. -/
def Obligations.TokenBoundaryTestsSizeThenFlag : Prop :=
  ∀ s s0 : State, nextMover s = .core s0 → s0.ctl = .tok →
    (s0.declSize.toNat ≤ s0.outCount.toNat →
      step s = .next { s0 with resultValid := true, done := true, ctl := .idle }) ∧
    (s0.outCount.toNat < s0.declSize.toNat →
      ∃ f s1, readBits 1 s0 = .value f s1 ∧
        step s = .next { s1 with ctl := if f.toNat = 0 then .lit else .mlen })

/-- R153: the MLEN step: raw_length 15 is the sentinel and no offset is read, otherwise REM is the length. -/
def Obligations.LengthVisitTestsTheSentinel : Prop :=
  ∀ s s0 : State, nextMover s = .core s0 → s0.ctl = .mlen →
    ∃ r s1, readBits 4 s0 = .value r s1 ∧
      (r.toNat = 15 →
        step s = .next { s1 with sentinel := true, resultValid := true, done := true, ctl := .idle }) ∧
      (r.toNat ≠ 15 → ∃ t, step s = .next t ∧ t.rem.toNat = r.toNat + 3 ∧ t.ctl = .moff ∧
        t = { s1 with rem := t.rem, ctl := t.ctl })

/-- R152, R155: the LIT and MOFF steps in terms of the field they read. REM is a length at the offset step, as every
reachable state has it (RunInv). -/
def Obligations.LastFieldVisits : Prop :=
  (∀ s s0 : State, nextMover s = .core s0 → s0.ctl = .lit →
    ∃ v s1, readBits 8 s0 = .value v s1 ∧ step s = .next { emit (v.setWidth 8) s1 with ctl := .tok }) ∧
  (∀ s s0 : State, nextMover s = .core s0 → s0.ctl = .moff → 3 ≤ s0.rem.toNat → s0.rem.toNat ≤ 17 →
    ∃ v s1, readBits 13 s0 = .value v s1 ∧
      (v.toNat = 0 → step s = .next
        { s1 with err := some .corruptStream, resultValid := false, done := true, ctl := .idle }) ∧
      (v.toNat ≠ 0 → ∃ t, step s = .next t ∧
        t.src.toNat = (s0.wptr.toNat + 8192 - v.toNat) % 8192 ∧
        t.prehist = (s0.prehist || decide (s0.fill.toNat < v.toNat)) ∧ t.ctl = .copy ∧
        t = { s1 with src := t.src, prehist := t.prehist, ctl := t.ctl }))

/-- R75, R183, R184, R211: the HDR step. A stream shorter than 8 bytes is malformed and nothing is read; otherwise
DECL_SIZE is bytes 4 to 7, big-endian, and CURSOR is 8. The host provides enough output memory (log 11) and has
changed no input byte during the run. -/
def Obligations.HeaderVisitParsesTheSize : Prop :=
  ∀ s s0 : State, nextMover s = .core s0 → s0.ctl = .hdr →
    (s0.inLen.toNat < 8 → step s = .next
      { s0 with err := some .malformedHeader, resultValid := false, done := true, ctl := .idle }) ∧
    (8 ≤ s0.inLen.toNat → s0.inDirty = [] →
      let size := (inByte s0 4).toNat * 2 ^ 24 + (inByte s0 5).toNat * 2 ^ 16 + (inByte s0 6).toNat * 2 ^ 8 +
        (inByte s0 7).toNat
      size ≤ s0.outCapacity →
      step s = .next { s0 with declSize := BitVec.ofNat 32 size, cursor := 8, ctl := .tok } ∧
        (BitVec.ofNat 32 size).toNat = size)

/-- R195: a run whose declared size is 0 reads no payload bit and ends with a valid, empty result. -/
def Obligations.EmptyRunReadsNoPayload : Prop :=
  ∀ s : State, Quiet s → s.ctl = .hdr → s.outCount = 0 → 8 ≤ s.inLen.toNat → s.inDirty = [] →
    inByte s 4 = 0 → inByte s 5 = 0 → inByte s 6 = 0 → inByte s 7 = 0 →
    runs 2 s = .next
      { s with declSize := 0, cursor := 8, resultValid := true, done := true, ctl := .idle }

/-- R217 (d) and (e), I1: an offset read wholly from substituted zero bits reports both the underflow and
CORRUPT_STREAM, and PREHIST is not touched. -/
def Obligations.UnderflowedOffsetReportsBoth : Prop :=
  ∀ s s0 : State, nextMover s = .core s0 → s0.ctl = .moff → s0.acc = 0 → s0.cnt.toNat ≤ 7 →
    s0.inLen.toNat ≤ s0.cursor.toNat →
    ∃ t, step s = .next t ∧ t.uflow = true ∧ t.err = some .corruptStream ∧ t.done = true ∧
      t.resultValid = false ∧ t.prehist = s0.prehist ∧ t.cursor = s0.cursor

/-- R43, R226: IDLE waits; every register, the window and the memories stay as they are. -/
def Obligations.IdleWaits : Prop :=
  ∀ s : State, Quiet s → s.ctl = .idle → ∀ k, runs k s = .next s

/-! ## The host -/

/-- R57, R240, R241, R242: hardware reset, in any state, also during a run. -/
def Obligations.HardwareResetClearsEveryRegister : Prop :=
  ∀ s : State, ∃ t, hostAction .hwReset s = .next t ∧
    (∀ offset, regValue t offset = 0) ∧ irq t = false ∧ t.ctl = .idle ∧
    t.acc = 0 ∧ t.cnt = 0 ∧ t.cursor = 0 ∧ t.inLen = 0 ∧ t.wptr = 0 ∧ t.fill = 0 ∧ t.src = 0 ∧ t.rem = 0 ∧
    t.declSize = 0 ∧ t.outCount = 0 ∧ t.uflowCount = 0 ∧ t.ie = false ∧ t.done = false ∧ t.err = none ∧
    t.resultValid = false ∧ t.uflow = false ∧ t.sentinel = false ∧ t.trunc = false ∧ t.prehist = false ∧
    t.inp = s.inp ∧ t.out = s.out ∧
    (∀ offset, regValue State.reset offset = 0) ∧ State.reset.ctl = .idle ∧ irq State.reset = false

/-- R180, R181: a write to CTRL with bit 0 = 1 in IDLE sets IE and starts a run; every window cell holds WINDOW_INIT.
Every input byte placed before START is the one the run reads (R86); that is the model's record of input writes begun
anew (log 6). The model keeps the output as it was at START (log 7). -/
def Obligations.StartInitialisesTheRun : Prop :=
  ∀ (s : State) (v : Word), s.ctl = .idle → v.getLsbD 0 = true →
    ∃ t, hostAction (.regWrite 0x00 .word v) s = .next t ∧
      t.ie = v.getLsbD 1 ∧ t.ctl = .hdr ∧ (∀ p, winRead t p = Config.windowInit p) ∧
      t = { s with
        acc := 0, cnt := 0, cursor := 0, win := t.win, wptr := 0, fill := 0, src := 0, rem := 0
        declSize := 0, outCount := 0, uflowCount := 0, done := false, err := none, resultValid := false
        uflow := false, sentinel := false, trunc := false, prehist := false, ctl := .hdr, ie := t.ie
        inDirty := t.inDirty, outBefore := t.outBefore } ∧
      (∀ i, (inRead i t).1 = inByte s i.toNat) ∧ (∀ i, outByteOf t.outBefore i = outByte s i)

/-- R88, R218, D24: nothing of an earlier run survives START. Two idle states with the same input, output and host
side become the same state. -/
def Obligations.NothingOfAnEarlierRunSurvivesStart : Prop :=
  ∀ (s s' : State) (v : Word), s.ctl = .idle → s'.ctl = .idle → v.getLsbD 0 = true →
    s.inLen = s'.inLen → s.inp = s'.inp → s.out = s'.out → s.inbox = s'.inbox →
    s.outCapacity = s'.outCapacity → s.draws = s'.draws → s.regData = s'.regData → s.outData = s'.outData →
    hostAction (.regWrite 0x00 .word v) s = hostAction (.regWrite 0x00 .word v) s'

/-- R48, R182: a write to CTRL while BUSY, and one with bit 0 = 0 at any time, sets IE and does nothing else. -/
def Obligations.CtrlWriteWithoutStartSetsOnlyIe : Prop :=
  ∀ (s : State) (v : Word), s.ctl ≠ .idle ∨ v.getLsbD 0 = false →
    hostAction (.regWrite 0x00 .word v) s = .next { s with ie := v.getLsbD 1 }

/-- R49 to R53: what a write to every other register does: STATUS clears DONE, IN_LEN is set in IDLE, all else ignores
it. -/
def Obligations.OtherRegisterWrites : Prop :=
  ∀ (s : State) (v : Word) (offset : Nat), offset % 4 = 0 → offset ≠ 0x00 →
    hostAction (.regWrite offset .word v) s = .next
      { s with
        done := if offset = 0x04 ∧ v.getLsbD 1 = true then false else s.done
        inLen := if offset = 0x08 ∧ s.ctl = .idle then v else s.inLen }

/-- R49, R210: the fields of STATUS, the four codes of ERR, and that the reserved bits read 0. -/
def Obligations.StatusWordFields : Prop :=
  ∀ s : State,
    let w := regValue s 0x04
    (w.getLsbD 0 = true ↔ s.ctl ≠ .idle) ∧ w.getLsbD 1 = s.done ∧
    w.extractLsb' 2 3 = errCode s.err ∧ errCode none = 0 ∧ errCode (some .malformedHeader) = 1 ∧
    errCode (some .protocolViolation) = 2 ∧ errCode (some .corruptStream) = 3 ∧
    w.getLsbD 5 = s.uflow ∧ w.getLsbD 6 = s.sentinel ∧ w.getLsbD 7 = s.trunc ∧ w.getLsbD 8 = s.prehist ∧
    w.getLsbD 9 = s.resultValid ∧ ∀ i, 10 ≤ i → w.getLsbD i = false

/-- R43, R47, R48, R50 to R53: what every other register reads as, field by field, with the seven codes of STATE; a
read changes nothing but the port's answer. -/
def Obligations.RegisterReads : Prop :=
  (∀ (s : State) (offset : Nat), offset % 4 = 0 →
    hostAction (.regRead offset .word) s = .next { s with regData := regValue s offset }) ∧
  (∀ s : State,
    (∀ i, (regValue s 0x00).getLsbD i = (decide (i = 1) && s.ie)) ∧
    regValue s 0x08 = s.inLen ∧ regValue s 0x0C = s.declSize ∧ regValue s 0x10 = s.outCount ∧
    regValue s 0x14 = s.uflowCount ∧ regValue s 0x18 = s.cursor ∧ regValue s 0x1C = s.acc ∧
    (regValue s 0x20).toNat = s.cnt.toNat + 2 ^ 8 * s.rem.toNat + 2 ^ 16 * (ctlCode s.ctl).toNat ∧
    (regValue s 0x24).toNat = s.wptr.toNat + 2 ^ 16 * s.src.toNat ∧
    (regValue s 0x28).toNat = s.fill.toNat ∧
    ∀ offset, 0x2C ≤ offset → regValue s offset = 0) ∧
  ctlCode .idle = 0 ∧ ctlCode .hdr = 1 ∧ ctlCode .tok = 2 ∧ ctlCode .lit = 3 ∧ ctlCode .mlen = 4 ∧ ctlCode .moff = 5 ∧
  ctlCode .copy = 6

/-- R54, I9: a register access that is no aligned 32-bit word is refused. -/
def Obligations.OnlyAlignedWordAccessesAreDefined : Prop :=
  ∀ (s : State) (offset : Nat) (width : AccessWidth) (v : Word), offset % 4 ≠ 0 ∨ width ≠ .word →
    hostAction (.regRead offset width) s = .refused .registerAccessNotAlignedWord ∧
    hostAction (.regWrite offset width v) s = .refused .registerAccessNotAlignedWord

/-- R55, R192, R220: IRQ rises at the visit that ends a run, if IE = 1, and falls when DONE is cleared, when IE is
written 0, or at START; clearing DONE keeps ERR and the other flags. -/
def Obligations.IrqFollowsDoneAndIe : Prop :=
  (∀ s s0 t : State, nextMover s = .core s0 → RunInv s0 → s0.ctl ≠ .idle → step s = .next t →
    (irq t = true ↔ t.ctl = .idle ∧ s0.ie = true)) ∧
  (∀ (s : State) (v : Word), v.getLsbD 1 = true → ∃ t, hostAction (.regWrite 0x04 .word v) s = .next t ∧
    irq t = false ∧ t = { s with done := false }) ∧
  (∀ (s : State) (v : Word), v.getLsbD 1 = false → ∃ t, hostAction (.regWrite 0x00 .word v) s = .next t ∧
    irq t = false) ∧
  (∀ (s : State) (v : Word), s.ctl = .idle → v.getLsbD 0 = true →
    ∃ t, hostAction (.regWrite 0x00 .word v) s = .next t ∧ irq t = false)

/-- R182, R197: short of hardware reset the host cannot disturb a run: every core register, the window and the output
stay as they are, whatever it does. -/
def Obligations.HostCannotDisturbARun : Prop :=
  ∀ (e : HostEvent) (s t : State), s.ctl ≠ .idle → e ≠ .hwReset → hostAction e s = .next t →
    t = { s with
      ie := t.ie, done := t.done, inp := t.inp, inDirty := t.inDirty, regData := t.regData, outData := t.outData
      draws := t.draws } ∧
    (t.done = true → s.done = true)

/-- R86, R89, R243, D21: the host places an input byte. In IDLE that byte is the one the input holds at its index, and
nothing else changes. During a run it reads as a draw from then on (log 6), and the reads of the other bytes are not
affected. -/
def Obligations.InputWriteDuringARunMakesItsReadsDraws : Prop :=
  ∀ (s : State) (i : Word) (b : Byte), ∃ t, hostAction (.inWrite i b) s = .next t ∧
    (∀ k, inByte t k = if k = i.toNat then b else inByte s k) ∧
    (s.ctl = .idle → t = { s with inp := t.inp } ∧ ∀ j, (inRead j (start t)).1 = inByte t j.toNat) ∧
    (s.ctl ≠ .idle → t = { s with inp := t.inp, inDirty := t.inDirty } ∧
      inRead i t = (Config.drawByte t.draws, { t with draws := t.draws + 1 }) ∧
      ∀ j, j ≠ i → (inRead j t).1 = (inRead j s).1)

/-- R85, D22, I14: a host read of the output during a run returns, for each index, the byte the run writes there or
the byte that was there before the run, as the draw has it. The byte the run writes there is the one it has written, or
the one a later step of this run writes; where none does, within the bound of R194, there is only the byte before. In
IDLE the read returns the byte that is there. (log 7: the form of the draw.) -/
def Obligations.OutputReadReturnsOldOrNew : Prop :=
  ∀ (s : State) (i : Word), ∃ t, hostAction (.outRead i) s = .next t ∧
    t = { s with outData := t.outData, draws := t.draws } ∧
    (s.ctl = .idle → t.outData = outByte s i.toNat) ∧
    (s.ctl ≠ .idle → Config.drawNew s.draws = false → t.outData = outByteOf s.outBefore i.toNat) ∧
    (s.ctl ≠ .idle → Config.drawNew s.draws = true →
      (i.toNat < s.outCount.toNat → t.outData = outByte s i.toNat) ∧
      (s.outCount.toNat ≤ i.toNat →
        (∃ k u, DuringRun k t u ∧ i.toNat < u.outCount.toNat ∧ t.outData = outByte u i.toNat) ∨
        (t.outData = outByteOf s.outBefore i.toNat ∧
          ∀ k u, k ≤ 20 * (2 ^ 32 - 1) + 4 + s.inbox.length → DuringRun k t u → u.outCount.toNat ≤ i.toNat)))

/-- R197, R243, R248: the host touching the output memory during a run is a race, which the model stops at (log 13); in
IDLE it may write a byte of it or provide another one, which changes the size (log 11) and, by the model's choice, no
byte (log 26). -/
def Obligations.OutputMemoryRaceStops : Prop :=
  ∀ (s : State) (i : Word) (b : Byte) (size : Nat),
    (s.ctl ≠ .idle → hostAction (.outWrite i b) s = .fault .outputMemoryRace ∧
      hostAction (.provideOut size) s = .fault .outputMemoryRace) ∧
    (s.ctl = .idle → (∃ t, hostAction (.outWrite i b) s = .next t ∧
      (∀ k, outByte t k = if k = i.toNat then b else outByte s k) ∧ t = { s with out := t.out }) ∧
      hostAction (.provideOut size) s = .next { s with outCapacity := size })

/-! ## The whole machine -/

/-- The run invariant holds after reset. -/
def Obligations.RunInvariantAtReset : Prop := RunInv State.reset

/-- R33, R34, R37, R38, R41, R42, R45, R137, R190, R217 (f): every step, of the core or of the host, keeps the run
invariant. -/
def Obligations.EveryStepKeepsTheRunInvariant : Prop :=
  ∀ s t : State, RunInv s → step s = .next t → RunInv t

/-- The memories are in canonical form after reset, and every step keeps them so, the window inside its 8192 cells
(R36, R73; log 5). -/
def Obligations.EveryStepKeepsTheMemoryForm : Prop :=
  MemoryInv State.reset ∧ ∀ s t : State, MemoryInv s → step s = .next t → MemoryInv t

/-- R39, R166, R188: a run begins with an empty history, and every visit of the core keeps the window invariant and
the output in step with the bytes it has emitted. -/
def Obligations.EveryVisitKeepsTheHistory : Prop :=
  (∀ s : State, History (start s) []) ∧
  ∀ (s s0 t : State) (h : List Byte), nextMover s = .core s0 → RunInv s0 → History s0 h → step s = .next t →
    History t ((emittedBy s0).toList ++ h)

/-- R72, R84: START sets OUT_COUNT to 0; a visit writes the output at OUT_COUNT only, below DECL_SIZE, and then
OUT_COUNT grows by one. So each index is written once, in the order 0, 1, 2, .... -/
def Obligations.OutputIsWrittenInOrder : Prop :=
  (∀ s : State, (start s).outCount = 0 ∧ (start s).out = s.out) ∧
  ∀ s s0 t : State, nextMover s = .core s0 → step s = .next t →
    (t.out = s0.out ∧ t.outCount = s0.outCount) ∨
    (s0.outCount.toNat < s0.declSize.toNat ∧ t.declSize = s0.declSize ∧
      t.outCount.toNat = s0.outCount.toNat + 1 ∧
      ∀ i, i ≠ s0.outCount.toNat → outByte t i = outByte s0 i)

/-- R194: a run ends within 20·DECL_SIZE + 4 visits, whatever the input, also one that underflows. -/
def Obligations.EveryRunEnds : Prop :=
  ∀ s : State, Quiet s → RunInv s → s.ctl = .hdr → (readHeader s).1.toNat ≤ s.outCapacity →
    ∃ k t, k ≤ 20 * (readHeader s).1.toNat + 4 ∧ runs k s = .next t ∧ t.ctl = .idle ∧ t.done = true

/-- R190, R193: how a host reads the end of a run. -/
def Obligations.EndOfRunReports : Prop :=
  ∀ s : State, RunInv s → s.done = true →
    (s.ctl = .idle) ∧
    (s.resultValid = true ↔ s.err = none) ∧
    (s.resultValid = true → (s.outCount.toNat < s.declSize.toNat ↔ s.sentinel = true)) ∧
    (s.resultValid = true → s.sentinel = false → s.outCount = s.declSize) ∧
    ¬(s.trunc = true ∧ s.sentinel = true)

/-- R186: the machine's visits make the whole run of R186. From the header parse on, every number of rounds of the
decode loop is reached. -/
def Obligations.VisitsMakeTheWholeRun : Prop :=
  ∀ (s s1 : State) (fuel : Nat), Quiet s → s.ctl = .hdr → headerVisit s = some s1 →
    ∃ k, runs k s = .next (decodeLoop fuel s1)

/-- R216, R45: the core never reads its reports. Two states that differ in UFLOW, UFLOW_COUNT, SENTINEL, TRUNC and
PREHIST only make the same step, but for those. -/
def Obligations.ReportsAreNeverRead : Prop :=
  ∀ s s' : State, Quiet s → withoutReports s = withoutReports s' →
    mapNext withoutReports (step s) = mapNext withoutReports (step s')

/-- R185, R71: the core never reads input bytes 0 to 3. Two states whose input differs only there make the same
step. -/
def Obligations.TagIsNeverRead : Prop :=
  ∀ (s : State) (m : Memory), Quiet s → RunInv s →
    (∀ i, 4 ≤ i → Memory.read? m i = Memory.read? s.inp i) →
    step { s with inp := m } = mapNext (fun t => { t with inp := m }) (step s)

/-! ## The host's turn -/

/-- The step takes the oldest host action to come (log 8): an action of the host is a step of its own; the entry
`coreVisit` makes the visit of the core that an empty list makes, and the actions behind it wait (R52, R79). -/
def Obligations.StepTakesTheOldestHostAction : Prop :=
  (∀ (s : State) (e : HostEvent) (rest : List HostEvent), s.inbox = e :: rest → e ≠ .coreVisit →
    step s = hostAction e { s with inbox := rest }) ∧
  (∀ (s : State) (rest : List HostEvent), s.inbox = .coreVisit :: rest →
    nextMover s = .core { s with inbox := rest } ∧
    step s = mapNext (fun t => { t with inbox := rest }) (step { s with inbox := [] })) ∧
  (∀ s : State, Quiet s → nextMover s = .core s)

/-- R72, R84, R248: START takes the output as it is for what was there before the run, and every step keeps it, so that
an index the run has not reached holds what it held at START (log 7). -/
def Obligations.UnreachedOutputIsAsAtStart : Prop :=
  (∀ s : State, OutBeforeInv (start s)) ∧ ∀ s t : State, OutBeforeInv s → step s = .next t → OutBeforeInv t
end

