-- ==== Sys2Proof/Laws/Decode.lean ====
section
/-! SUPPORT. Bit strings and their values, and the decoder one field at a time (30_encoding.md). -/

namespace Sys2Proof

theorem length_bitsLsb (n v : Nat) : (bitsLsb n v).length = n := by
  induction n generalizing v with
  | zero => rfl
  | succ n ih => simp [bitsLsb, ih]

theorem bitsLsb_add (n m v : Nat) : bitsLsb (n + m) v = bitsLsb n v ++ bitsLsb m (v / 2 ^ n) := by
  induction n generalizing v with
  | zero => simp [bitsLsb]
  | succ n ih =>
    rw [Nat.add_right_comm]; simp only [bitsLsb, ih, List.cons_append]
    rw [Nat.div_div_eq_div_mul, ← Nat.pow_succ']

theorem valueLsb_bitsLsb (n v : Nat) : valueLsb (bitsLsb n v) = v % 2 ^ n := by
  induction n generalizing v with
  | zero => simp [bitsLsb, valueLsb, Nat.mod_one]
  | succ n ih =>
    simp only [bitsLsb, valueLsb, ih]
    rw [Nat.pow_succ', Nat.mod_mul]
    rcases Nat.mod_two_eq_zero_or_one v with h | h <;> simp [h]

theorem bitsLsb_valueLsb (bs : List Bool) : bitsLsb bs.length (valueLsb bs) = bs := by
  induction bs with
  | nil => rfl
  | cons b bs ih =>
    simp only [List.length_cons, bitsLsb, valueLsb]
    have h1 : (b.toNat + 2 * valueLsb bs) % 2 = b.toNat := by cases b <;> simp
    have h2 : (b.toNat + 2 * valueLsb bs) / 2 = valueLsb bs := by cases b <;> simp; omega
    rw [h1, h2, ih]; cases b <;> rfl

theorem valueLsb_lt (bs : List Bool) : valueLsb bs < 2 ^ bs.length := by
  rw [← bitsLsb_valueLsb bs, valueLsb_bitsLsb, length_bitsLsb]
  exact Nat.mod_lt _ (by positivity)

theorem bitsLsb_mod (n v : Nat) : bitsLsb n (v % 2 ^ n) = bitsLsb n v := by
  have h := bitsLsb_valueLsb (bitsLsb n v)
  rwa [valueLsb_bitsLsb, length_bitsLsb] at h

theorem takeField_append (n : Nat) (bs rest : List Bool) (h : bs.length = n) :
    takeField n (bs ++ rest) = some (BitVec.ofNat 16 (valueLsb bs), rest) := by
  subst h
  simp [takeField]

theorem takeField_bits (n v : Nat) (rest : List Bool) :
    takeField n (bitsLsb n v ++ rest) = some (BitVec.ofNat 16 (v % 2 ^ n), rest) := by
  rw [takeField_append n _ _ (length_bitsLsb n v), valueLsb_bitsLsb]

theorem valueLsb_append (x y : List Bool) : valueLsb (x ++ y) = valueLsb x + 2 ^ x.length * valueLsb y := by
  induction x with
  | nil => simp [valueLsb]
  | cons b x ih => simp only [List.cons_append, valueLsb, ih, List.length_cons, Nat.pow_succ]; ring

/-! ## Decoding, one field -/

/-- A field that does not settle the token: decoding goes on with the next stage. -/
theorem decodeFrom_more {fuel : Nat} {stage next : Stage} {bits rest : List Bool} {v : BitVec 16}
    (h : takeField stage.width.toNat bits = some (v, rest)) (hf : decodeField stage v = .more next) :
    decodeFrom (fuel + 1) stage bits = decodeFrom fuel next rest := by
  simp only [decodeFrom, h, hf]

/-- A field that settles it. -/
theorem decodeFrom_token {fuel : Nat} {stage : Stage} {bits rest : List Bool} {v : BitVec 16} {i : Instr}
    (h : takeField stage.width.toNat bits = some (v, rest)) (hf : decodeField stage v = .token i) :
    decodeFrom (fuel + 1) stage bits = .ok (i, rest) := by
  simp only [decodeFrom, h, hf]

theorem decodeField_flag_zero {v : BitVec 16} (h : v.setWidth 1 = (0 : BitVec 1)) :
    decodeField .flag v = .more .literal := by simp only [decodeField, if_pos h]

theorem decodeField_flag_one {v : BitVec 16} (h : v.setWidth 1 ≠ (0 : BitVec 1)) :
    decodeField .flag v = .more .length := by simp only [decodeField, if_neg h]

theorem decodeField_length_sentinel {v : BitVec 16} (h : v.setWidth 4 = (15 : BitVec 4)) :
    decodeField .length v = .token .endToken := by
  exact if_pos h

theorem decodeField_length_raw {v : BitVec 16} (h : v.setWidth 4 ≠ (15 : BitVec 4)) :
    decodeField .length v = .more (.offset (v.setWidth 4)) := by
  exact if_neg h

theorem decodeField_offset_zero {v : BitVec 16} (raw : BitVec 4) (h : v.setWidth 13 = (0 : BitVec 13)) :
    decodeField (.offset raw) v = .token (.matchZeroOffset raw) := by simp only [decodeField, if_pos h]

theorem decodeField_offset_ne {v : BitVec 16} (raw : BitVec 4) (h : v.setWidth 13 ≠ (0 : BitVec 13)) :
    decodeField (.offset raw) v = .token (.matchRef raw (v.setWidth 13)) := by simp only [decodeField, if_neg h]

end Sys2Proof
end

