-- ==== Sys2Proof/Laws/Memory.lean ====
section
/-! SUPPORT. Byte memories: a read after a write, and the canonical form (log 5). -/

namespace Sys2Proof.Machine

/-- A read after a write: the byte written at its index, every other index as before. -/
theorem Memory.read?_write (m : Memory) (a : Nat) (b : Byte) (i : Nat) :
    Memory.read? (Memory.write m a b) i = if i = a then some b else Memory.read? m i := by
  induction m with
  | nil => rfl
  | cons kc m ih =>
    obtain ⟨k, c⟩ := kc
    simp only [Memory.write]
    split
    · rfl
    · split
      · next h => subst h; by_cases hi : i = a <;> simp [Memory.read?, hi]
      · next h =>
        simp only [Memory.read?, ih]
        by_cases hk : i = k
        · simp [hk, Ne.symm h]
        · simp [hk]

theorem Memory.read?_write_same (m : Memory) (a : Nat) (b : Byte) :
    Memory.read? (Memory.write m a b) a = some b := by simp [Memory.read?_write]

theorem Memory.read?_write_of_ne (m : Memory) {a i : Nat} (b : Byte) (h : i ≠ a) :
    Memory.read? (Memory.write m a b) i = Memory.read? m i := by simp [Memory.read?_write, h]

/-- A canonical list is one whose first index is below every later one, and whose rest is canonical. -/
theorem Memory.wf_cons (k : Nat) (c : Byte) (m : Memory) :
    Memory.wf ((k, c) :: m) = true ↔ (∀ x ∈ m.head?, k < x.1) ∧ Memory.wf m = true := by
  cases m with
  | nil => simp [Memory.wf]
  | cons x m => simp [Memory.wf]

/-- A write keeps the canonical form. -/
theorem Memory.wf_write (m : Memory) (a : Nat) (b : Byte) (h : Memory.wf m = true) :
    Memory.wf (Memory.write m a b) = true := by
  induction m with
  | nil => rfl
  | cons kc m ih =>
    obtain ⟨k, c⟩ := kc
    have hk := (Memory.wf_cons k c m).1 h
    simp only [Memory.write]
    split
    · next hlt => exact (Memory.wf_cons a b _).2 ⟨by simpa using hlt, h⟩
    · split
      · next hak => subst hak; exact (Memory.wf_cons a b m).2 hk
      · next hlt hne =>
        refine (Memory.wf_cons k c _).2 ⟨?_, ih hk.2⟩
        cases m with
        | nil => simp [Memory.write]; omega
        | cons x m =>
          obtain ⟨k2, c2⟩ := x
          have h2 : k < k2 := hk.1 (k2, c2) rfl
          simp only [Memory.write]
          split
          · simp; omega
          · split <;> simp <;> omega

theorem Memory.wf_writeAll (bs : List Byte) : ∀ (m : Memory) (a : Nat), Memory.wf m = true →
    Memory.wf (Memory.writeAll m a bs) = true := by
  induction bs with
  | nil => exact fun _ _ h => h
  | cons b bs ih => exact fun m a h => ih _ _ (Memory.wf_write m a b h)

/-! ## Equal memories are equal data -/

/-- Below the first index of a canonical memory nothing is listed. -/
theorem Memory.read?_lt_head {k : Nat} {c : Byte} {m : Memory} (h : Memory.wf ((k, c) :: m) = true) {i : Nat}
    (hi : i < k) : Memory.read? ((k, c) :: m) i = none := by
  induction m generalizing k c with
  | nil => simp [Memory.read?]; omega
  | cons e m ih =>
    obtain ⟨k', c'⟩ := e
    simp only [Memory.wf, Bool.and_eq_true, decide_eq_true_eq] at h
    rw [Memory.read?, if_neg (by omega)]
    exact ih h.2 (by omega)

/-- Two memories in canonical form that read the same everywhere are the same list (log 5). -/
theorem Memory.eq_of_read? : ∀ {m m' : Memory}, Memory.wf m = true → Memory.wf m' = true →
    (∀ i, Memory.read? m i = Memory.read? m' i) → m = m'
  | [], [], _, _, _ => rfl
  | [], (k, c) :: m', _, _, h => by have := h k; simp [Memory.read?] at this
  | (k, c) :: m, [], _, _, h => by have := h k; simp [Memory.read?] at this
  | (k, c) :: m, (k', c') :: m', h1, h2, h => by
    have tail : ∀ {k : Nat} {c : Byte} {m : Memory}, Memory.wf ((k, c) :: m) = true → Memory.wf m = true := by
      intro k c m h
      cases m with
      | nil => rfl
      | cons e m => simp only [Memory.wf, Bool.and_eq_true] at h; exact h.2
    have head : ∀ {k : Nat} {c : Byte} {m : Memory}, Memory.wf ((k, c) :: m) = true → Memory.read? m k = none := by
      intro k c m h
      cases m with
      | nil => rfl
      | cons e m =>
        obtain ⟨k2, c2⟩ := e
        simp only [Memory.wf, Bool.and_eq_true, decide_eq_true_eq] at h
        exact Memory.read?_lt_head h.2 h.1
    have hk : k = k' := by
      rcases Nat.lt_trichotomy k k' with hl | he | hl
      · have := h k; rw [Memory.read?_lt_head h2 hl] at this; simp [Memory.read?] at this
      · exact he
      · have := h k'; rw [Memory.read?_lt_head h1 hl] at this; simp [Memory.read?] at this
    subst hk
    have hc : c = c' := by have := h k; simpa [Memory.read?] using this
    subst hc
    have : m = m' := Memory.eq_of_read? (tail h1) (tail h2) fun i => by
      by_cases hi : i = k
      · subst hi; rw [head h1, head h2]
      · have := h i; simpa [Memory.read?, hi] using this
    rw [this]

/-- The memories of the reset state are in canonical form. -/
theorem Memory.wf_reset : Memory.wf State.reset.inp = true ∧ Memory.wf State.reset.out = true ∧
    Memory.wf State.reset.win = true ∧ Memory.wf State.reset.outBefore = true := ⟨rfl, rfl, rfl, rfl⟩

/-! ## The spaces -/

theorem winRead_winWrite (p : WinIx) (b : Byte) (s : State) (q : WinIx) :
    winRead (winWrite p b s) q = if q = p then b else winRead s q := by
  by_cases h : q = p
  · subst h; simp [winRead, winWrite, Memory.read?_write]
  · have : q.toNat ≠ p.toNat := fun e => h (BitVec.eq_of_toNat_eq e)
    simp [winRead, winWrite, Memory.read?_write, this, h]

theorem outByte_outWrite (i : Word) (b : Byte) (s : State) (k : Nat) :
    outByte (outWrite i b s) k = if k = i.toNat then b else outByte s k := by
  by_cases h : k = i.toNat <;> simp [outByte, outByteOf, outWrite, Memory.read?_write, h]

end Sys2Proof.Machine
end

