-- ==== Sys2Proof/Laws/State.lean ====
section
/-! SUPPORT. What each named update leaves in each field of State: one lemma per field and update, so that no proof
unfolds a record update. -/

namespace Sys2Proof.Machine

variable (e : FatalError) (s : State) (i : Word) (p : WinIx) (b : Byte) (n : BitVec 5)

/-! ## raise -/

@[simp] theorem raise_acc : (raise e s).acc = s.acc := rfl
@[simp] theorem raise_cnt : (raise e s).cnt = s.cnt := rfl
@[simp] theorem raise_cursor : (raise e s).cursor = s.cursor := rfl
@[simp] theorem raise_inLen : (raise e s).inLen = s.inLen := rfl
@[simp] theorem raise_win : (raise e s).win = s.win := rfl
@[simp] theorem raise_wptr : (raise e s).wptr = s.wptr := rfl
@[simp] theorem raise_fill : (raise e s).fill = s.fill := rfl
@[simp] theorem raise_src : (raise e s).src = s.src := rfl
@[simp] theorem raise_rem : (raise e s).rem = s.rem := rfl
@[simp] theorem raise_declSize : (raise e s).declSize = s.declSize := rfl
@[simp] theorem raise_outCount : (raise e s).outCount = s.outCount := rfl
@[simp] theorem raise_ctl : (raise e s).ctl = .idle := rfl
@[simp] theorem raise_done : (raise e s).done = true := rfl
@[simp] theorem raise_err : (raise e s).err = some e := rfl
@[simp] theorem raise_resultValid : (raise e s).resultValid = false := rfl
@[simp] theorem raise_uflow : (raise e s).uflow = s.uflow := rfl
@[simp] theorem raise_sentinel : (raise e s).sentinel = s.sentinel := rfl
@[simp] theorem raise_trunc : (raise e s).trunc = s.trunc := rfl
@[simp] theorem raise_prehist : (raise e s).prehist = s.prehist := rfl
@[simp] theorem raise_uflowCount : (raise e s).uflowCount = s.uflowCount := rfl
@[simp] theorem raise_ie : (raise e s).ie = s.ie := rfl
@[simp] theorem raise_inp : (raise e s).inp = s.inp := rfl
@[simp] theorem raise_out : (raise e s).out = s.out := rfl
@[simp] theorem raise_inbox : (raise e s).inbox = s.inbox := rfl
@[simp] theorem raise_inDirty : (raise e s).inDirty = s.inDirty := rfl
@[simp] theorem raise_outBefore : (raise e s).outBefore = s.outBefore := rfl
@[simp] theorem raise_outCapacity : (raise e s).outCapacity = s.outCapacity := rfl
@[simp] theorem raise_draws : (raise e s).draws = s.draws := rfl
@[simp] theorem raise_regData : (raise e s).regData = s.regData := rfl
@[simp] theorem raise_outData : (raise e s).outData = s.outData := rfl

/-! ## finish -/

@[simp] theorem finish_acc : (finish s).acc = s.acc := rfl
@[simp] theorem finish_cnt : (finish s).cnt = s.cnt := rfl
@[simp] theorem finish_cursor : (finish s).cursor = s.cursor := rfl
@[simp] theorem finish_inLen : (finish s).inLen = s.inLen := rfl
@[simp] theorem finish_win : (finish s).win = s.win := rfl
@[simp] theorem finish_wptr : (finish s).wptr = s.wptr := rfl
@[simp] theorem finish_fill : (finish s).fill = s.fill := rfl
@[simp] theorem finish_src : (finish s).src = s.src := rfl
@[simp] theorem finish_rem : (finish s).rem = s.rem := rfl
@[simp] theorem finish_declSize : (finish s).declSize = s.declSize := rfl
@[simp] theorem finish_outCount : (finish s).outCount = s.outCount := rfl
@[simp] theorem finish_ctl : (finish s).ctl = .idle := rfl
@[simp] theorem finish_done : (finish s).done = true := rfl
@[simp] theorem finish_err : (finish s).err = s.err := rfl
@[simp] theorem finish_resultValid : (finish s).resultValid = true := rfl
@[simp] theorem finish_uflow : (finish s).uflow = s.uflow := rfl
@[simp] theorem finish_sentinel : (finish s).sentinel = s.sentinel := rfl
@[simp] theorem finish_trunc : (finish s).trunc = s.trunc := rfl
@[simp] theorem finish_prehist : (finish s).prehist = s.prehist := rfl
@[simp] theorem finish_uflowCount : (finish s).uflowCount = s.uflowCount := rfl
@[simp] theorem finish_ie : (finish s).ie = s.ie := rfl
@[simp] theorem finish_inp : (finish s).inp = s.inp := rfl
@[simp] theorem finish_out : (finish s).out = s.out := rfl
@[simp] theorem finish_inbox : (finish s).inbox = s.inbox := rfl
@[simp] theorem finish_inDirty : (finish s).inDirty = s.inDirty := rfl
@[simp] theorem finish_outBefore : (finish s).outBefore = s.outBefore := rfl
@[simp] theorem finish_outCapacity : (finish s).outCapacity = s.outCapacity := rfl
@[simp] theorem finish_draws : (finish s).draws = s.draws := rfl
@[simp] theorem finish_regData : (finish s).regData = s.regData := rfl
@[simp] theorem finish_outData : (finish s).outData = s.outData := rfl

/-! ## outWrite -/

@[simp] theorem outWrite_acc : (outWrite i b s).acc = s.acc := rfl
@[simp] theorem outWrite_cnt : (outWrite i b s).cnt = s.cnt := rfl
@[simp] theorem outWrite_cursor : (outWrite i b s).cursor = s.cursor := rfl
@[simp] theorem outWrite_inLen : (outWrite i b s).inLen = s.inLen := rfl
@[simp] theorem outWrite_win : (outWrite i b s).win = s.win := rfl
@[simp] theorem outWrite_wptr : (outWrite i b s).wptr = s.wptr := rfl
@[simp] theorem outWrite_fill : (outWrite i b s).fill = s.fill := rfl
@[simp] theorem outWrite_src : (outWrite i b s).src = s.src := rfl
@[simp] theorem outWrite_rem : (outWrite i b s).rem = s.rem := rfl
@[simp] theorem outWrite_declSize : (outWrite i b s).declSize = s.declSize := rfl
@[simp] theorem outWrite_outCount : (outWrite i b s).outCount = s.outCount := rfl
@[simp] theorem outWrite_ctl : (outWrite i b s).ctl = s.ctl := rfl
@[simp] theorem outWrite_done : (outWrite i b s).done = s.done := rfl
@[simp] theorem outWrite_err : (outWrite i b s).err = s.err := rfl
@[simp] theorem outWrite_resultValid : (outWrite i b s).resultValid = s.resultValid := rfl
@[simp] theorem outWrite_uflow : (outWrite i b s).uflow = s.uflow := rfl
@[simp] theorem outWrite_sentinel : (outWrite i b s).sentinel = s.sentinel := rfl
@[simp] theorem outWrite_trunc : (outWrite i b s).trunc = s.trunc := rfl
@[simp] theorem outWrite_prehist : (outWrite i b s).prehist = s.prehist := rfl
@[simp] theorem outWrite_uflowCount : (outWrite i b s).uflowCount = s.uflowCount := rfl
@[simp] theorem outWrite_ie : (outWrite i b s).ie = s.ie := rfl
@[simp] theorem outWrite_inp : (outWrite i b s).inp = s.inp := rfl
@[simp] theorem outWrite_out : (outWrite i b s).out = Memory.write s.out i.toNat b := rfl
@[simp] theorem outWrite_inbox : (outWrite i b s).inbox = s.inbox := rfl
@[simp] theorem outWrite_inDirty : (outWrite i b s).inDirty = s.inDirty := rfl
@[simp] theorem outWrite_outBefore : (outWrite i b s).outBefore = s.outBefore := rfl
@[simp] theorem outWrite_outCapacity : (outWrite i b s).outCapacity = s.outCapacity := rfl
@[simp] theorem outWrite_draws : (outWrite i b s).draws = s.draws := rfl
@[simp] theorem outWrite_regData : (outWrite i b s).regData = s.regData := rfl
@[simp] theorem outWrite_outData : (outWrite i b s).outData = s.outData := rfl

/-! ## winWrite -/

@[simp] theorem winWrite_acc : (winWrite p b s).acc = s.acc := rfl
@[simp] theorem winWrite_cnt : (winWrite p b s).cnt = s.cnt := rfl
@[simp] theorem winWrite_cursor : (winWrite p b s).cursor = s.cursor := rfl
@[simp] theorem winWrite_inLen : (winWrite p b s).inLen = s.inLen := rfl
@[simp] theorem winWrite_win : (winWrite p b s).win = Memory.write s.win p.toNat b := rfl
@[simp] theorem winWrite_wptr : (winWrite p b s).wptr = s.wptr := rfl
@[simp] theorem winWrite_fill : (winWrite p b s).fill = s.fill := rfl
@[simp] theorem winWrite_src : (winWrite p b s).src = s.src := rfl
@[simp] theorem winWrite_rem : (winWrite p b s).rem = s.rem := rfl
@[simp] theorem winWrite_declSize : (winWrite p b s).declSize = s.declSize := rfl
@[simp] theorem winWrite_outCount : (winWrite p b s).outCount = s.outCount := rfl
@[simp] theorem winWrite_ctl : (winWrite p b s).ctl = s.ctl := rfl
@[simp] theorem winWrite_done : (winWrite p b s).done = s.done := rfl
@[simp] theorem winWrite_err : (winWrite p b s).err = s.err := rfl
@[simp] theorem winWrite_resultValid : (winWrite p b s).resultValid = s.resultValid := rfl
@[simp] theorem winWrite_uflow : (winWrite p b s).uflow = s.uflow := rfl
@[simp] theorem winWrite_sentinel : (winWrite p b s).sentinel = s.sentinel := rfl
@[simp] theorem winWrite_trunc : (winWrite p b s).trunc = s.trunc := rfl
@[simp] theorem winWrite_prehist : (winWrite p b s).prehist = s.prehist := rfl
@[simp] theorem winWrite_uflowCount : (winWrite p b s).uflowCount = s.uflowCount := rfl
@[simp] theorem winWrite_ie : (winWrite p b s).ie = s.ie := rfl
@[simp] theorem winWrite_inp : (winWrite p b s).inp = s.inp := rfl
@[simp] theorem winWrite_out : (winWrite p b s).out = s.out := rfl
@[simp] theorem winWrite_inbox : (winWrite p b s).inbox = s.inbox := rfl
@[simp] theorem winWrite_inDirty : (winWrite p b s).inDirty = s.inDirty := rfl
@[simp] theorem winWrite_outBefore : (winWrite p b s).outBefore = s.outBefore := rfl
@[simp] theorem winWrite_outCapacity : (winWrite p b s).outCapacity = s.outCapacity := rfl
@[simp] theorem winWrite_draws : (winWrite p b s).draws = s.draws := rfl
@[simp] theorem winWrite_regData : (winWrite p b s).regData = s.regData := rfl
@[simp] theorem winWrite_outData : (winWrite p b s).outData = s.outData := rfl

/-! ## loadByte -/

@[simp] theorem loadByte_acc : (loadByte b s).acc = s.acc ||| (b.setWidth 32 <<< s.cnt.toNat) := rfl
@[simp] theorem loadByte_cnt : (loadByte b s).cnt = s.cnt + 8 := rfl
@[simp] theorem loadByte_cursor : (loadByte b s).cursor = s.cursor := rfl
@[simp] theorem loadByte_inLen : (loadByte b s).inLen = s.inLen := rfl
@[simp] theorem loadByte_win : (loadByte b s).win = s.win := rfl
@[simp] theorem loadByte_wptr : (loadByte b s).wptr = s.wptr := rfl
@[simp] theorem loadByte_fill : (loadByte b s).fill = s.fill := rfl
@[simp] theorem loadByte_src : (loadByte b s).src = s.src := rfl
@[simp] theorem loadByte_rem : (loadByte b s).rem = s.rem := rfl
@[simp] theorem loadByte_declSize : (loadByte b s).declSize = s.declSize := rfl
@[simp] theorem loadByte_outCount : (loadByte b s).outCount = s.outCount := rfl
@[simp] theorem loadByte_ctl : (loadByte b s).ctl = s.ctl := rfl
@[simp] theorem loadByte_done : (loadByte b s).done = s.done := rfl
@[simp] theorem loadByte_err : (loadByte b s).err = s.err := rfl
@[simp] theorem loadByte_resultValid : (loadByte b s).resultValid = s.resultValid := rfl
@[simp] theorem loadByte_uflow : (loadByte b s).uflow = s.uflow := rfl
@[simp] theorem loadByte_sentinel : (loadByte b s).sentinel = s.sentinel := rfl
@[simp] theorem loadByte_trunc : (loadByte b s).trunc = s.trunc := rfl
@[simp] theorem loadByte_prehist : (loadByte b s).prehist = s.prehist := rfl
@[simp] theorem loadByte_uflowCount : (loadByte b s).uflowCount = s.uflowCount := rfl
@[simp] theorem loadByte_ie : (loadByte b s).ie = s.ie := rfl
@[simp] theorem loadByte_inp : (loadByte b s).inp = s.inp := rfl
@[simp] theorem loadByte_out : (loadByte b s).out = s.out := rfl
@[simp] theorem loadByte_inbox : (loadByte b s).inbox = s.inbox := rfl
@[simp] theorem loadByte_inDirty : (loadByte b s).inDirty = s.inDirty := rfl
@[simp] theorem loadByte_outBefore : (loadByte b s).outBefore = s.outBefore := rfl
@[simp] theorem loadByte_outCapacity : (loadByte b s).outCapacity = s.outCapacity := rfl
@[simp] theorem loadByte_draws : (loadByte b s).draws = s.draws := rfl
@[simp] theorem loadByte_regData : (loadByte b s).regData = s.regData := rfl
@[simp] theorem loadByte_outData : (loadByte b s).outData = s.outData := rfl

/-! ## dropBits -/

@[simp] theorem dropBits_acc : (dropBits n s).acc = s.acc >>> n.toNat := rfl
@[simp] theorem dropBits_cnt : (dropBits n s).cnt = s.cnt - n := rfl
@[simp] theorem dropBits_cursor : (dropBits n s).cursor = s.cursor := rfl
@[simp] theorem dropBits_inLen : (dropBits n s).inLen = s.inLen := rfl
@[simp] theorem dropBits_win : (dropBits n s).win = s.win := rfl
@[simp] theorem dropBits_wptr : (dropBits n s).wptr = s.wptr := rfl
@[simp] theorem dropBits_fill : (dropBits n s).fill = s.fill := rfl
@[simp] theorem dropBits_src : (dropBits n s).src = s.src := rfl
@[simp] theorem dropBits_rem : (dropBits n s).rem = s.rem := rfl
@[simp] theorem dropBits_declSize : (dropBits n s).declSize = s.declSize := rfl
@[simp] theorem dropBits_outCount : (dropBits n s).outCount = s.outCount := rfl
@[simp] theorem dropBits_ctl : (dropBits n s).ctl = s.ctl := rfl
@[simp] theorem dropBits_done : (dropBits n s).done = s.done := rfl
@[simp] theorem dropBits_err : (dropBits n s).err = s.err := rfl
@[simp] theorem dropBits_resultValid : (dropBits n s).resultValid = s.resultValid := rfl
@[simp] theorem dropBits_uflow : (dropBits n s).uflow = s.uflow := rfl
@[simp] theorem dropBits_sentinel : (dropBits n s).sentinel = s.sentinel := rfl
@[simp] theorem dropBits_trunc : (dropBits n s).trunc = s.trunc := rfl
@[simp] theorem dropBits_prehist : (dropBits n s).prehist = s.prehist := rfl
@[simp] theorem dropBits_uflowCount : (dropBits n s).uflowCount = s.uflowCount := rfl
@[simp] theorem dropBits_ie : (dropBits n s).ie = s.ie := rfl
@[simp] theorem dropBits_inp : (dropBits n s).inp = s.inp := rfl
@[simp] theorem dropBits_out : (dropBits n s).out = s.out := rfl
@[simp] theorem dropBits_inbox : (dropBits n s).inbox = s.inbox := rfl
@[simp] theorem dropBits_inDirty : (dropBits n s).inDirty = s.inDirty := rfl
@[simp] theorem dropBits_outBefore : (dropBits n s).outBefore = s.outBefore := rfl
@[simp] theorem dropBits_outCapacity : (dropBits n s).outCapacity = s.outCapacity := rfl
@[simp] theorem dropBits_draws : (dropBits n s).draws = s.draws := rfl
@[simp] theorem dropBits_regData : (dropBits n s).regData = s.regData := rfl
@[simp] theorem dropBits_outData : (dropBits n s).outData = s.outData := rfl

/-! ## pushWindow -/

@[simp] theorem pushWindow_acc : (pushWindow b s).acc = s.acc := rfl
@[simp] theorem pushWindow_cnt : (pushWindow b s).cnt = s.cnt := rfl
@[simp] theorem pushWindow_cursor : (pushWindow b s).cursor = s.cursor := rfl
@[simp] theorem pushWindow_inLen : (pushWindow b s).inLen = s.inLen := rfl
@[simp] theorem pushWindow_win : (pushWindow b s).win = Memory.write s.win s.wptr.toNat b := rfl
@[simp] theorem pushWindow_wptr : (pushWindow b s).wptr = s.wptr + 1 := rfl
@[simp] theorem pushWindow_fill : (pushWindow b s).fill = if s.fill < 8192 then s.fill + 1 else 8192 := rfl
@[simp] theorem pushWindow_src : (pushWindow b s).src = s.src := rfl
@[simp] theorem pushWindow_rem : (pushWindow b s).rem = s.rem := rfl
@[simp] theorem pushWindow_declSize : (pushWindow b s).declSize = s.declSize := rfl
@[simp] theorem pushWindow_outCount : (pushWindow b s).outCount = s.outCount := rfl
@[simp] theorem pushWindow_ctl : (pushWindow b s).ctl = s.ctl := rfl
@[simp] theorem pushWindow_done : (pushWindow b s).done = s.done := rfl
@[simp] theorem pushWindow_err : (pushWindow b s).err = s.err := rfl
@[simp] theorem pushWindow_resultValid : (pushWindow b s).resultValid = s.resultValid := rfl
@[simp] theorem pushWindow_uflow : (pushWindow b s).uflow = s.uflow := rfl
@[simp] theorem pushWindow_sentinel : (pushWindow b s).sentinel = s.sentinel := rfl
@[simp] theorem pushWindow_trunc : (pushWindow b s).trunc = s.trunc := rfl
@[simp] theorem pushWindow_prehist : (pushWindow b s).prehist = s.prehist := rfl
@[simp] theorem pushWindow_uflowCount : (pushWindow b s).uflowCount = s.uflowCount := rfl
@[simp] theorem pushWindow_ie : (pushWindow b s).ie = s.ie := rfl
@[simp] theorem pushWindow_inp : (pushWindow b s).inp = s.inp := rfl
@[simp] theorem pushWindow_out : (pushWindow b s).out = s.out := rfl
@[simp] theorem pushWindow_inbox : (pushWindow b s).inbox = s.inbox := rfl
@[simp] theorem pushWindow_inDirty : (pushWindow b s).inDirty = s.inDirty := rfl
@[simp] theorem pushWindow_outBefore : (pushWindow b s).outBefore = s.outBefore := rfl
@[simp] theorem pushWindow_outCapacity : (pushWindow b s).outCapacity = s.outCapacity := rfl
@[simp] theorem pushWindow_draws : (pushWindow b s).draws = s.draws := rfl
@[simp] theorem pushWindow_regData : (pushWindow b s).regData = s.regData := rfl
@[simp] theorem pushWindow_outData : (pushWindow b s).outData = s.outData := rfl

/-! ## start -/

@[simp] theorem start_acc : (start s).acc = 0 := rfl
@[simp] theorem start_cnt : (start s).cnt = 0 := rfl
@[simp] theorem start_cursor : (start s).cursor = 0 := rfl
@[simp] theorem start_inLen : (start s).inLen = s.inLen := rfl
@[simp] theorem start_win : (start s).win = [] := rfl
@[simp] theorem start_wptr : (start s).wptr = 0 := rfl
@[simp] theorem start_fill : (start s).fill = 0 := rfl
@[simp] theorem start_src : (start s).src = 0 := rfl
@[simp] theorem start_rem : (start s).rem = 0 := rfl
@[simp] theorem start_declSize : (start s).declSize = 0 := rfl
@[simp] theorem start_outCount : (start s).outCount = 0 := rfl
@[simp] theorem start_ctl : (start s).ctl = .hdr := rfl
@[simp] theorem start_done : (start s).done = false := rfl
@[simp] theorem start_err : (start s).err = none := rfl
@[simp] theorem start_resultValid : (start s).resultValid = false := rfl
@[simp] theorem start_uflow : (start s).uflow = false := rfl
@[simp] theorem start_sentinel : (start s).sentinel = false := rfl
@[simp] theorem start_trunc : (start s).trunc = false := rfl
@[simp] theorem start_prehist : (start s).prehist = false := rfl
@[simp] theorem start_uflowCount : (start s).uflowCount = 0 := rfl
@[simp] theorem start_ie : (start s).ie = s.ie := rfl
@[simp] theorem start_inp : (start s).inp = s.inp := rfl
@[simp] theorem start_out : (start s).out = s.out := rfl
@[simp] theorem start_inbox : (start s).inbox = s.inbox := rfl
@[simp] theorem start_inDirty : (start s).inDirty = [] := rfl
@[simp] theorem start_outBefore : (start s).outBefore = s.out := rfl
@[simp] theorem start_outCapacity : (start s).outCapacity = s.outCapacity := rfl
@[simp] theorem start_draws : (start s).draws = s.draws := rfl
@[simp] theorem start_regData : (start s).regData = s.regData := rfl
@[simp] theorem start_outData : (start s).outData = s.outData := rfl

end Sys2Proof.Machine
end

