-- ==== Sys2Proof/Laws/Reader.lean ====
section
/-! SUPPORT. The bit reader: what a refill and a read do, once (R130 to R140). -/

namespace Sys2Proof.Machine

/-! ## InRead -/

theorem inRead_of_clean {s : State} (h : s.inDirty = []) (i : Word) : inRead i s = (inByte s i.toNat, s) := by
  simp [inRead, h]

/-- An input read changes nothing but the model's draw counter (R80). -/
theorem inRead_frame (i : Word) (s : State) : (inRead i s).2 = { s with draws := (inRead i s).2.draws } := by
  unfold inRead; split <;> rfl

/-! ## Frames -/

/-- The registers a read may change are the reader's and its underflow reports (R136). -/
def ReaderFrame (s t : State) : Prop :=
  t = { s with
    acc := t.acc, cnt := t.cnt, cursor := t.cursor, uflow := t.uflow, uflowCount := t.uflowCount
    draws := t.draws }

theorem ReaderFrame.refl (s : State) : ReaderFrame s s := rfl

theorem ReaderFrame.trans {s t u : State} (h : ReaderFrame s t) (k : ReaderFrame t u) : ReaderFrame s u := by
  unfold ReaderFrame at *; rw [k, h]

theorem refill_frame (s : State) : ReaderFrame s (refill s) := by
  unfold refill ReaderFrame
  split
  · unfold inRead; split <;> rfl
  · rfl

theorem refillUntil_frame (fuel : Nat) (n : BitVec 5) : ∀ s, ReaderFrame s (refillUntil fuel n s) := by
  induction fuel with
  | zero => exact ReaderFrame.refl
  | succ fuel ih =>
    intro s
    unfold refillUntil
    split
    · exact (refill_frame s).trans (ih _)
    · exact ReaderFrame.refl s

theorem dropBits_frame (n : BitVec 5) (s : State) : ReaderFrame s (dropBits n s) := rfl

/-! ## One read -/

/-- The state a legal read leaves. -/
def afterRead (n : BitVec 5) (s : State) : State := dropBits n (refillUntil 2 n s)

/-- The value a legal read returns. -/
def readValue (n : BitVec 5) (s : State) : BitVec 16 := lowBits n (refillUntil 2 n s).acc

/-- A width up to 16 always gets a value (R131, R133). -/
theorem readBits_of_le {n : BitVec 5} (h : n.toNat ≤ 16) (s : State) :
    readBits n s = .value (readValue n s) (afterRead n s) := by
  have : ¬ Config.maxRead < n := by simp [BitVec.lt_def]; omega
  unfold readBits; rw [if_neg this]; rfl

theorem readBits_of_gt {n : BitVec 5} (h : 16 < n.toNat) (s : State) : readBits n s = .violation s := by
  have : Config.maxRead < n := by simp [BitVec.lt_def]; omega
  unfold readBits; rw [if_pos this]

theorem readBits_flag (s : State) : readBits 1 s = .value (readValue 1 s) (afterRead 1 s) :=
  readBits_of_le (by decide) s
theorem readBits_length (s : State) : readBits 4 s = .value (readValue 4 s) (afterRead 4 s) :=
  readBits_of_le (by decide) s
theorem readBits_literal (s : State) : readBits 8 s = .value (readValue 8 s) (afterRead 8 s) :=
  readBits_of_le (by decide) s
theorem readBits_offset (s : State) : readBits 13 s = .value (readValue 13 s) (afterRead 13 s) :=
  readBits_of_le (by decide) s

/-- Every field of a token is read with a legal width (R137). -/
theorem readBits_stage (stage : Stage) (s : State) :
    readBits stage.width s = .value (readValue stage.width s) (afterRead stage.width s) :=
  readBits_of_le (by cases stage <;> simp [Stage.width]) s

/-- A read that answers a value is a legal one, and the answer is the one named. -/
theorem readBits_value {n : BitVec 5} {s t : State} {v : BitVec 16} (h : readBits n s = .value v t) :
    n.toNat ≤ 16 ∧ v = readValue n s ∧ t = afterRead n s := by
  by_cases hn : n.toNat ≤ 16
  · rw [readBits_of_le hn] at h; cases h; exact ⟨hn, rfl, rfl⟩
  · rw [readBits_of_gt (by omega)] at h; cases h

theorem afterRead_frame (n : BitVec 5) (s : State) : ReaderFrame s (afterRead n s) :=
  (refillUntil_frame 2 n s).trans (dropBits_frame n _)

@[simp] theorem andThen_value (v : BitVec 16) (s : State) (k : BitVec 16 → State → State) :
    (ReadResult.value v s).andThen k = k v s := rfl

/-! ### What a read leaves in each field it does not write -/

section
variable (n : BitVec 5) (s : State)
@[simp] theorem afterRead_inLen : (afterRead n s).inLen = s.inLen := by rw [afterRead_frame n s]
@[simp] theorem afterRead_win : (afterRead n s).win = s.win := by rw [afterRead_frame n s]
@[simp] theorem afterRead_wptr : (afterRead n s).wptr = s.wptr := by rw [afterRead_frame n s]
@[simp] theorem afterRead_fill : (afterRead n s).fill = s.fill := by rw [afterRead_frame n s]
@[simp] theorem afterRead_src : (afterRead n s).src = s.src := by rw [afterRead_frame n s]
@[simp] theorem afterRead_rem : (afterRead n s).rem = s.rem := by rw [afterRead_frame n s]
@[simp] theorem afterRead_declSize : (afterRead n s).declSize = s.declSize := by rw [afterRead_frame n s]
@[simp] theorem afterRead_outCount : (afterRead n s).outCount = s.outCount := by rw [afterRead_frame n s]
@[simp] theorem afterRead_ctl : (afterRead n s).ctl = s.ctl := by rw [afterRead_frame n s]
@[simp] theorem afterRead_done : (afterRead n s).done = s.done := by rw [afterRead_frame n s]
@[simp] theorem afterRead_err : (afterRead n s).err = s.err := by rw [afterRead_frame n s]
@[simp] theorem afterRead_resultValid : (afterRead n s).resultValid = s.resultValid := by rw [afterRead_frame n s]
@[simp] theorem afterRead_sentinel : (afterRead n s).sentinel = s.sentinel := by rw [afterRead_frame n s]
@[simp] theorem afterRead_trunc : (afterRead n s).trunc = s.trunc := by rw [afterRead_frame n s]
@[simp] theorem afterRead_prehist : (afterRead n s).prehist = s.prehist := by rw [afterRead_frame n s]
@[simp] theorem afterRead_ie : (afterRead n s).ie = s.ie := by rw [afterRead_frame n s]
@[simp] theorem afterRead_inp : (afterRead n s).inp = s.inp := by rw [afterRead_frame n s]
@[simp] theorem afterRead_out : (afterRead n s).out = s.out := by rw [afterRead_frame n s]
@[simp] theorem afterRead_inbox : (afterRead n s).inbox = s.inbox := by rw [afterRead_frame n s]
@[simp] theorem afterRead_inDirty : (afterRead n s).inDirty = s.inDirty := by rw [afterRead_frame n s]
@[simp] theorem afterRead_outBefore : (afterRead n s).outBefore = s.outBefore := by rw [afterRead_frame n s]
@[simp] theorem afterRead_outCapacity : (afterRead n s).outCapacity = s.outCapacity := by rw [afterRead_frame n s]
@[simp] theorem afterRead_regData : (afterRead n s).regData = s.regData := by rw [afterRead_frame n s]
@[simp] theorem afterRead_outData : (afterRead n s).outData = s.outData := by rw [afterRead_frame n s]
@[simp] theorem winRead_afterRead (p : WinIx) : winRead (afterRead n s) p = winRead s p := by simp [winRead]
@[simp] theorem outByte_afterRead (i : Nat) : outByte (afterRead n s) i = outByte s i := by simp [outByte]
@[simp] theorem inByte_afterRead (i : Nat) : inByte (afterRead n s) i = inByte s i := by simp [inByte]
end

/-! ## The bits ahead -/

theorem loadByte_testBit {s : State} (hacc : s.acc.toNat < 2 ^ s.cnt.toNat) (hcnt : s.cnt.toNat ≤ 15) (b : Byte)
    (j : Nat) :
    (loadByte b s).acc.getLsbD j =
      if j < s.cnt.toNat then s.acc.getLsbD j else b.getLsbD (j - s.cnt.toNat) := by
  have hhi : ∀ i, s.cnt.toNat ≤ i → s.acc.getLsbD i = false := by
    intro i hi
    rw [← BitVec.testBit_toNat]
    exact Nat.testBit_lt_two_pow (lt_of_lt_of_le hacc (Nat.pow_le_pow_right (by omega) hi))
  simp only [loadByte_acc, BitVec.getLsbD_or, BitVec.getLsbD_shiftLeft, BitVec.getLsbD_setWidth]
  by_cases hj : j < s.cnt.toNat
  · simp [hj]
  · by_cases h32 : j < 32
    · have h0 := hhi j (by omega)
      rw [h0]
      have : j - s.cnt.toNat < 32 := by omega
      simp [hj, h32, this]
    · have : b.getLsbD (j - s.cnt.toNat) = false := BitVec.getLsbD_of_ge _ _ (by omega)
      simp [hj, h32, hhi j (by omega), this]

/-- A clean accumulator stays clean over a refill. -/
theorem loadByte_acc_lt {s : State} (hacc : s.acc.toNat < 2 ^ s.cnt.toNat) (hcnt : s.cnt.toNat ≤ 15) (b : Byte) :
    (loadByte b s).acc.toNat < 2 ^ (s.cnt.toNat + 8) := by
  apply Nat.lt_pow_two_of_testBit
  intro i hi
  rw [BitVec.testBit_toNat, loadByte_testBit hacc hcnt]
  have : ¬ i < s.cnt.toNat := by omega
  simp only [this, if_false]
  exact BitVec.getLsbD_of_ge _ _ (by omega)

theorem loadByte_cnt_toNat {s : State} (hcnt : s.cnt.toNat ≤ 15) (b : Byte) :
    (loadByte b s).cnt.toNat = s.cnt.toNat + 8 := by
  simp [BitVec.toNat_add]; omega

/-- What a refill leaves in CNT, CURSOR and the underflow reports (R132, R135). -/
theorem refill_fields {s : State} (hcnt : s.cnt.toNat ≤ 15) :
    (refill s).cnt.toNat = s.cnt.toNat + 8 ∧
    (if s.cursor.toNat < s.inLen.toNat then
      (refill s).cursor.toNat = s.cursor.toNat + 1 ∧ (refill s).uflow = s.uflow ∧
        (refill s).uflowCount = s.uflowCount
    else
      (refill s).cursor = s.cursor ∧ (refill s).uflow = true ∧
        (refill s).uflowCount.toNat = min (s.uflowCount.toNat + 1) 0xFFFFFFFF) := by
  constructor
  · unfold refill
    split
    · rw [loadByte_cnt_toNat] <;> (simp only; unfold inRead; split <;> first | exact hcnt | rfl)
    · rw [loadByte_cnt_toNat] <;> simp [hcnt]
  · unfold refill
    simp only [BitVec.lt_def]
    split
    · refine ⟨?_, ?_, ?_⟩
      · have := s.inLen.isLt
        simp [BitVec.toNat_add]; omega
      · simp only [loadByte_uflow]; unfold inRead; split <;> rfl
      · simp only [loadByte_uflowCount]; unfold inRead; split <;> rfl
    · refine ⟨rfl, rfl, ?_⟩
      simp only [loadByte_uflowCount, saturatingSucc]
      have := s.uflowCount.isLt
      split
      · next h => simp [h]
      · next h =>
        have : s.uflowCount.toNat ≠ 4294967295 := fun e => h (BitVec.eq_of_toNat_eq e)
        simp [BitVec.toNat_add]; omega

theorem refill_acc_lt {s : State} (hacc : s.acc.toNat < 2 ^ s.cnt.toNat) (hcnt : s.cnt.toNat ≤ 15) :
    (refill s).acc.toNat < 2 ^ (s.cnt.toNat + 8) := by
  unfold refill
  split
  · have h := inRead_frame s.cursor s
    simp only
    generalize inRead s.cursor s = r at h ⊢
    obtain ⟨b, t⟩ := r
    simp only at h ⊢
    rw [h]
    exact loadByte_acc_lt (s := { s with draws := t.draws, cursor := s.cursor + 1 }) hacc hcnt b
  · exact loadByte_acc_lt (s := { s with uflow := true, uflowCount := saturatingSucc s.uflowCount }) hacc hcnt 0

/-- Loading the next input byte, or a zero byte past the end, leaves the bits ahead as they are. -/
theorem nextBit_of_load {s t : State} (b : Byte) (hcnt : t.cnt.toNat = s.cnt.toNat + 8)
    (hacc : ∀ j, t.acc.getLsbD j = if j < s.cnt.toNat then s.acc.getLsbD j else b.getLsbD (j - s.cnt.toNat))
    (hinp : t.inp = s.inp) (hlen : t.inLen = s.inLen)
    (h : (s.cursor.toNat < s.inLen.toNat ∧ t.cursor.toNat = s.cursor.toNat + 1 ∧ b = inByte s s.cursor.toNat) ∨
      (¬ s.cursor.toNat < s.inLen.toNat ∧ t.cursor = s.cursor ∧ b = 0)) (j : Nat) :
    nextBit t j = nextBit s j := by
  simp only [nextBit, inByte, hcnt, hacc, hinp, hlen]
  by_cases h1 : j < s.cnt.toNat
  · have : j < s.cnt.toNat + 8 := by omega
    simp [h1, this]
  · rcases h with ⟨hlt, hc, hb⟩ | ⟨hlt, hc, hb⟩
    · by_cases h2 : j < s.cnt.toNat + 8
      · have e1 : (j - s.cnt.toNat) / 8 = 0 := by omega
        have e2 : (j - s.cnt.toNat) % 8 = j - s.cnt.toNat := by omega
        simp [h1, h2, e1, e2, hlt, hb, inByte]
      · have e1 : s.cursor.toNat + 1 + (j - (s.cnt.toNat + 8)) / 8 = s.cursor.toNat + (j - s.cnt.toNat) / 8 := by
          omega
        have e2 : (j - (s.cnt.toNat + 8)) % 8 = (j - s.cnt.toNat) % 8 := by omega
        simp [h1, h2, e1, e2, hc]
    · have a1 : ¬ s.cursor.toNat + (j - (s.cnt.toNat + 8)) / 8 < s.inLen.toNat := by omega
      have a2 : ¬ s.cursor.toNat + (j - s.cnt.toNat) / 8 < s.inLen.toNat := by omega
      simp only [hc, hb, if_neg a1, if_neg a2, if_neg h1]
      simp

/-- A refill leaves the bits ahead as they are (R140). -/
theorem nextBit_refill {s : State} (hacc : s.acc.toNat < 2 ^ s.cnt.toNat) (hcnt : s.cnt.toNat ≤ 15)
    (hd : s.inDirty = []) (j : Nat) : nextBit (refill s) j = nextBit s j := by
  have hin := s.inLen.isLt
  unfold refill
  split
  · next hlt =>
    rw [BitVec.lt_def] at hlt
    rw [inRead_of_clean hd]
    have hcu : (s.cursor + 1).toNat = s.cursor.toNat + 1 := by simp [BitVec.toNat_add]; omega
    exact nextBit_of_load (s := s) (inByte s s.cursor.toNat)
      (loadByte_cnt_toNat (s := { s with cursor := s.cursor + 1 }) hcnt _)
      (loadByte_testBit (s := { s with cursor := s.cursor + 1 }) hacc hcnt _) rfl rfl
      (.inl ⟨hlt, hcu, rfl⟩) j
  · next hlt =>
    rw [BitVec.lt_def] at hlt
    exact nextBit_of_load (s := s) 0
      (loadByte_cnt_toNat (s := { s with uflow := true, uflowCount := saturatingSucc s.uflowCount }) hcnt _)
      (loadByte_testBit (s := { s with uflow := true, uflowCount := saturatingSucc s.uflowCount }) hacc hcnt _)
      rfl rfl (.inr ⟨hlt, rfl, rfl⟩) j

/-- The refills of a read of width n ≤ 16: CNT, the clean accumulator, and the bits ahead (R34, R133, R138). -/
theorem refillUntil_spec {n : BitVec 5} (hn : n.toNat ≤ 16) (s : State) :
    n.toNat ≤ (refillUntil 2 n s).cnt.toNat ∧
    (s.acc.toNat < 2 ^ s.cnt.toNat →
      (refillUntil 2 n s).acc.toNat < 2 ^ (refillUntil 2 n s).cnt.toNat ∧
      (s.inDirty = [] → ∀ j, nextBit (refillUntil 2 n s) j = nextBit s j)) := by
  have key : ∀ (fuel : Nat) (s : State), n.toNat ≤ s.cnt.toNat + 8 * fuel →
      n.toNat ≤ (refillUntil fuel n s).cnt.toNat ∧
      (s.acc.toNat < 2 ^ s.cnt.toNat →
        (refillUntil fuel n s).acc.toNat < 2 ^ (refillUntil fuel n s).cnt.toNat ∧
        (s.inDirty = [] → ∀ j, nextBit (refillUntil fuel n s) j = nextBit s j)) := by
    intro fuel
    induction fuel with
    | zero => exact fun s h => ⟨by simpa [refillUntil] using h, fun ha => ⟨ha, fun _ _ => rfl⟩⟩
    | succ fuel ih =>
      intro s h
      unfold refillUntil
      split
      · next hlt =>
        rw [BitVec.lt_def] at hlt
        have hc : s.cnt.toNat ≤ 15 := by omega
        have hcnt := (refill_fields hc).1
        obtain ⟨i1, i2⟩ := ih (refill s) (by omega)
        refine ⟨i1, fun ha => ?_⟩
        obtain ⟨i3, i4⟩ := i2 (by rw [hcnt]; exact refill_acc_lt ha hc)
        refine ⟨i3, fun hd j => ?_⟩
        have hd' : (refill s).inDirty = [] := by rw [refill_frame s]; exact hd
        rw [i4 hd' j, nextBit_refill ha hc hd]
      · next hlt =>
        rw [BitVec.lt_def] at hlt
        exact ⟨by omega, fun ha => ⟨ha, fun _ _ => rfl⟩⟩
  exact key 2 s (by omega)

theorem valueLsb_map_range (f : Nat → Bool) : ∀ n,
    (∀ k, (valueLsb ((List.range n).map f)).testBit k = (decide (k < n) && f k)) := by
  intro n
  induction n generalizing f with
  | zero => simp [valueLsb]
  | succ n ih =>
    intro k
    rw [List.range_succ_eq_map, List.map_cons, List.map_map]
    simp only [valueLsb]
    cases k with
    | zero =>
      have : ((f 0).toNat + 2 * valueLsb ((List.range n).map (f ∘ Nat.succ))) % 2 = (f 0).toNat := by
        cases f 0 <;> simp
      rw [Nat.testBit_zero, this]; cases f 0 <;> simp
    | succ k =>
      have : ((f 0).toNat + 2 * valueLsb ((List.range n).map (f ∘ Nat.succ))) / 2 =
          valueLsb ((List.range n).map (f ∘ Nat.succ)) := by
        cases f 0
        · simp
        · simp; omega
      rw [Nat.testBit_succ, this, ih]; simp

theorem dropBits_cnt_toNat {n : BitVec 5} {s : State} (h : n.toNat ≤ s.cnt.toNat) :
    (dropBits n s).cnt.toNat = s.cnt.toNat - n.toNat := by
  have := s.cnt.isLt
  simp [BitVec.toNat_sub]; omega

/-- An extraction moves the bits ahead by its width (R134). -/
theorem nextBit_dropBits {n : BitVec 5} {s : State} (h : n.toNat ≤ s.cnt.toNat) (j : Nat) :
    nextBit (dropBits n s) j = nextBit s (n.toNat + j) := by
  simp only [nextBit, dropBits_cnt_toNat h, dropBits_acc, dropBits_cursor, dropBits_inLen, inByte, dropBits_inp]
  by_cases hj : j < s.cnt.toNat - n.toNat
  · have : n.toNat + j < s.cnt.toNat := by omega
    simp [hj, this, BitVec.getLsbD_ushiftRight]
  · have h2 : ¬ n.toNat + j < s.cnt.toNat := by omega
    have e : j - (s.cnt.toNat - n.toNat) = n.toNat + j - s.cnt.toNat := by omega
    simp [hj, h2, e]

/-- Everything a legal read does (R133): its value is the next bits, and the reader stands behind them. -/
theorem read_spec {n : BitVec 5} (hn : n.toNat ≤ 16) {s : State} (hacc : s.acc.toNat < 2 ^ s.cnt.toNat)
    (hd : s.inDirty = []) :
    (readValue n s).toNat = valueLsb (nextBits s n.toNat) ∧
    (∀ j, nextBit (afterRead n s) j = nextBit s (n.toNat + j)) := by
  obtain ⟨h1, h2⟩ := refillUntil_spec hn s
  obtain ⟨h3, h4⟩ := h2 hacc
  have h4 := h4 hd
  constructor
  · apply Nat.eq_of_testBit_eq
    intro k
    rw [nextBits, valueLsb_map_range]
    simp only [readValue, lowBits, BitVec.toNat_ofNat]
    have hlt : (refillUntil 2 n s).acc.toNat % 2 ^ n.toNat < 2 ^ 16 :=
      lt_of_lt_of_le (Nat.mod_lt _ (by positivity)) (Nat.pow_le_pow_right (by omega) hn)
    rw [Nat.mod_eq_of_lt hlt, Nat.testBit_mod_two_pow]
    by_cases hk : k < n.toNat
    · have : k < (refillUntil 2 n s).cnt.toNat := by omega
      rw [← h4 k]; simp [hk, nextBit, this, BitVec.testBit_toNat]
    · simp [hk]
  · intro j
    rw [afterRead, nextBit_dropBits h1, h4]

end Sys2Proof.Machine
end

