-- ==== Sys2Proof/Laws/Step.lean ====
section
/-! SUPPORT. What each token's meaning and each visit of the core answers, once (R151 to R156, R183, R184). Later
proofs cite these and do not unfold `step`. -/

namespace Sys2Proof.Machine

/-! ## The tokens -/

theorem exec_lit (b : Byte) (s : State) : exec (.lit b) s = .next { emit b (afterRead 8 s) with ctl := .tok } := by
  show Host.Outcome.next ((readBits 8 s).andThen _) = _
  rw [readBits_literal]; rfl

theorem exec_endToken (s : State) : exec .endToken s = .next (finish { afterRead 4 s with sentinel := true }) := by
  show Host.Outcome.next ((readBits 4 s).andThen _) = _
  rw [readBits_length]; rfl

/-- The offset visit of a format M token, whichever of the two it is. -/
theorem offsetVisit_eq (raw : BitVec 4) (off : BitVec 13) (s : State) :
    offsetVisit raw off s = applyOffset off { afterRead 13 s with rem := matchLength raw } := by
  show (readBits 13 s).andThen _ = _
  rw [readBits_offset]; rfl

theorem exec_matchRef (raw : BitVec 4) (off : BitVec 13) (s : State) :
    exec (.matchRef raw off) s = .next (applyOffset off { afterRead 13 s with rem := matchLength raw }) :=
  congrArg Host.Outcome.next (offsetVisit_eq raw off s)

theorem exec_matchZeroOffset (raw : BitVec 4) (s : State) :
    exec (.matchZeroOffset raw) s = .next (raise .corruptStream { afterRead 13 s with rem := matchLength raw }) :=
  congrArg Host.Outcome.next (offsetVisit_eq raw 0 s)

/-- A MATCH that is one starts its copy (R155). -/
theorem exec_matchRef_of_ne {off : BitVec 13} (h : off ≠ 0) (raw : BitVec 4) (s : State) :
    exec (.matchRef raw off) s = .next
      { afterRead 13 s with
        rem := matchLength raw
        prehist := s.prehist || beyondHistory off s.fill
        src := matchSource s.wptr off
        ctl := .copy } := by
  rw [exec_matchRef, applyOffset, if_neg h]
  simp only [afterRead_prehist, afterRead_fill, afterRead_wptr]

theorem exec_next (i : Instr) (s : State) : ∃ t, exec i s = .next t := by
  cases i with
  | endToken => exact ⟨_, exec_endToken s⟩
  | matchZeroOffset raw => exact ⟨_, exec_matchZeroOffset raw s⟩
  | matchRef raw off => exact ⟨_, exec_matchRef raw off s⟩
  | lit b => exact ⟨_, exec_lit b s⟩

/-! ## The visits -/

theorem step_of_core {s s0 : State} (h : nextMover s = .core s0) : step s = coreStep s0 := by
  unfold step stepWith; rw [h]

theorem step_of_host {s s0 : State} {e : HostEvent} (h : nextMover s = .host e s0) : step s = hostAction e s0 := by
  unfold step stepWith; rw [h]; rfl

theorem nextMover_of_quiet {s : State} (h : Quiet s) : nextMover s = .core s := by simp [nextMover, show s.inbox = [] from h]

theorem nextMover_of_coreVisit {s : State} {rest : List HostEvent} (h : s.inbox = .coreVisit :: rest) :
    nextMover s = .core { s with inbox := rest } := by simp [nextMover, h]

theorem nextMover_of_host {s : State} {e : HostEvent} {rest : List HostEvent} (h : s.inbox = e :: rest)
    (he : e ≠ .coreVisit) : nextMover s = .host e { s with inbox := rest } := by
  unfold nextMover; rw [h]; cases e <;> first | rfl | exact absurd rfl he

theorem step_of_quiet {s : State} (h : Quiet s) : step s = coreStep s := step_of_core (nextMover_of_quiet h)

section
variable {s : State}

theorem coreStep_idle (h : s.ctl = .idle) : coreStep s = .next s := by simp [coreStep, coreVisit, h]

theorem coreStep_hdr (h : s.ctl = .hdr) :
    coreStep s = match headerVisit s with
      | some t => .next t
      | none => .refused .outputMemoryTooSmall := by
  cases e : headerVisit s <;> simp [coreStep, coreVisit, h, e]

/-- One field read, whatever the stage: decoded, it is consumed or completes the token. -/
theorem fetchField_eq (stage : Stage) (s : State) :
    fetchField stage s = match decodeField stage (readValue stage.width s) with
      | .more next => .moved (enterStage next (afterRead stage.width s))
      | .token i => .run i := by
  rw [fetchField, readBits_stage] <;> rfl

theorem coreStep_tok_of_le (h : s.ctl = .tok) (hle : s.declSize ≤ s.outCount) : coreStep s = .next (finish s) := by
  simp only [coreStep, coreVisit, h, if_pos hle]

theorem coreStep_tok (h : s.ctl = .tok) (hlt : ¬ s.declSize ≤ s.outCount) :
    coreStep s = .next
      { afterRead 1 s with ctl := if (readValue 1 s).setWidth 1 = (0 : BitVec 1) then .lit else .mlen } := by
  simp only [coreStep, coreVisit, h, if_neg hlt, fetchField_eq, decodeField]
  by_cases hf : (readValue 1 s).setWidth 1 = (0 : BitVec 1)
  · rw [if_pos (show (readValue Stage.flag.width s).setWidth 1 = (0 : BitVec 1) from hf), if_pos hf]; rfl
  · rw [if_neg (show ¬ (readValue Stage.flag.width s).setWidth 1 = (0 : BitVec 1) from hf), if_neg hf]; rfl

theorem coreStep_lit (h : s.ctl = .lit) :
    coreStep s = .next { emit ((readValue 8 s).setWidth 8) (afterRead 8 s) with ctl := .tok } := by
  simp only [coreStep, coreVisit, h, fetchField_eq, decodeField]
  exact exec_lit _ s

theorem coreStep_mlen (h : s.ctl = .mlen) :
    coreStep s =
      if (readValue 4 s).setWidth 4 = (15 : BitVec 4) then .next (finish { afterRead 4 s with sentinel := true })
      else .next { afterRead 4 s with rem := matchLength ((readValue 4 s).setWidth 4), ctl := .moff } := by
  simp only [coreStep, coreVisit, h, fetchField_eq, decodeField]
  by_cases hf : (readValue 4 s).setWidth 4 = (15 : BitVec 4)
  · rw [if_pos (show (readValue Stage.length.width s).setWidth 4 = Config.lenSentinel from hf), if_pos hf]
    exact exec_endToken s
  · rw [if_neg (show ¬ (readValue Stage.length.width s).setWidth 4 = Config.lenSentinel from hf), if_neg hf]; rfl

theorem coreStep_moff (h : s.ctl = .moff) :
    coreStep s = .next (applyOffset ((readValue 13 s).setWidth 13)
      { afterRead 13 s with rem := matchLength (rawLengthOf s.rem) }) := by
  simp only [coreStep, coreVisit, h, fetchField_eq, decodeField]
  by_cases h0 : (readValue 13 s).setWidth 13 = (0 : BitVec 13)
  · rw [if_pos (show (readValue (Stage.offset (rawLengthOf s.rem)).width s).setWidth 13 = (0 : BitVec 13) from h0),
      h0]
    exact exec_matchZeroOffset _ s
  · rw [if_neg (show ¬ (readValue (Stage.offset (rawLengthOf s.rem)).width s).setWidth 13 = (0 : BitVec 13) from h0)]
    exact exec_matchRef _ _ s

theorem coreStep_copy (h : s.ctl = .copy) : coreStep s = .next (copyVisit s) := by simp [coreStep, coreVisit, h]

end

/-- Length and raw_length undo each other over the lengths a token can have (R105). -/
theorem matchLength_rawLengthOf {r : BitVec 5} (h3 : 3 ≤ r.toNat) (h18 : r.toNat ≤ 18) :
    matchLength (rawLengthOf r) = r := by
  revert h3 h18
  revert r
  simp only [matchLength, rawLengthOf, Config.minMatch]
  decide

theorem rawLengthOf_matchLength (raw : BitVec 4) : rawLengthOf (matchLength raw) = raw := by
  revert raw
  simp only [matchLength, rawLengthOf, Config.minMatch]
  decide

theorem matchLength_toNat (raw : BitVec 4) : (matchLength raw).toNat = raw.toNat + 3 := by
  have := raw.isLt
  simp [matchLength, BitVec.toNat_add]; omega

/-! ## Several steps -/

@[simp] theorem runs_zero (s : State) : runs 0 s = .next s := rfl

theorem runs_succ (k : Nat) (s : State) : runs (k + 1) s =
    match step s with
    | .next t => runs k t
    | .fault r => .fault r
    | .refused r => .refused r := by
  refine (Host.Core.run.eq_2 Sys2Proof.core s k).trans ?_
  cases h : step s with
  | next t => rw [show Sys2Proof.core.step s = Host.Outcome.next t from h]; rfl
  | fault t => rw [show Sys2Proof.core.step s = Host.Outcome.fault t from h]; rfl
  | refused t => rw [show Sys2Proof.core.step s = Host.Outcome.refused t from h]; rfl

theorem runs_succ_of_next {s t : State} (h : step s = .next t) (k : Nat) : runs (k + 1) s = runs k t := by
  rw [runs_succ, h]

theorem runs_add {k m : Nat} {s t : State} (h : runs k s = .next t) : runs (k + m) s = runs m t := by
  induction k generalizing s with
  | zero => simp at h; subst h; simp
  | succ k ih =>
    rw [Nat.add_right_comm, runs_succ]
    rw [runs_succ] at h
    cases hs : step s with
    | next u => rw [hs] at h; exact ih h
    | fault r => rw [hs] at h; cases h
    | refused r => rw [hs] at h; cases h

end Sys2Proof.Machine
end

