-- ==== Sys2Proof/Laws/Emit.lean ====
section
/-! SUPPORT. Everything `emit` does (R150), and the copy (R156, R157). -/

namespace Sys2Proof.Machine

/-! ## emit, field by field -/

section
variable (b : Byte) (s : State)

theorem emit_of_lt {b : Byte} {s : State} (h : s.outCount < s.declSize) :
    emit b s = { outWrite s.outCount b (pushWindow b s) with outCount := s.outCount + 1 } := by
  simp [emit, pushOutput, h]

theorem emit_of_not_lt {b : Byte} {s : State} (h : ¬ s.outCount < s.declSize) :
    emit b s = { pushWindow b s with trunc := true } := by
  simp [emit, pushOutput, h]

/-- What `emit` may change (R150). -/
theorem emit_frame : emit b s = { s with
    win := (emit b s).win, wptr := (emit b s).wptr, fill := (emit b s).fill, out := (emit b s).out
    outCount := (emit b s).outCount, trunc := (emit b s).trunc } := by
  by_cases h : s.outCount < s.declSize
  · rw [emit_of_lt h]; rfl
  · rw [emit_of_not_lt h]; rfl

@[simp] theorem emit_acc : (emit b s).acc = s.acc := by rw [emit_frame]
@[simp] theorem emit_cnt : (emit b s).cnt = s.cnt := by rw [emit_frame]
@[simp] theorem emit_cursor : (emit b s).cursor = s.cursor := by rw [emit_frame]
@[simp] theorem emit_inLen : (emit b s).inLen = s.inLen := by rw [emit_frame]
@[simp] theorem emit_src : (emit b s).src = s.src := by rw [emit_frame]
@[simp] theorem emit_rem : (emit b s).rem = s.rem := by rw [emit_frame]
@[simp] theorem emit_declSize : (emit b s).declSize = s.declSize := by rw [emit_frame]
@[simp] theorem emit_ctl : (emit b s).ctl = s.ctl := by rw [emit_frame]
@[simp] theorem emit_done : (emit b s).done = s.done := by rw [emit_frame]
@[simp] theorem emit_err : (emit b s).err = s.err := by rw [emit_frame]
@[simp] theorem emit_resultValid : (emit b s).resultValid = s.resultValid := by rw [emit_frame]
@[simp] theorem emit_uflow : (emit b s).uflow = s.uflow := by rw [emit_frame]
@[simp] theorem emit_sentinel : (emit b s).sentinel = s.sentinel := by rw [emit_frame]
@[simp] theorem emit_prehist : (emit b s).prehist = s.prehist := by rw [emit_frame]
@[simp] theorem emit_uflowCount : (emit b s).uflowCount = s.uflowCount := by rw [emit_frame]
@[simp] theorem emit_ie : (emit b s).ie = s.ie := by rw [emit_frame]
@[simp] theorem emit_inp : (emit b s).inp = s.inp := by rw [emit_frame]
@[simp] theorem emit_inbox : (emit b s).inbox = s.inbox := by rw [emit_frame]
@[simp] theorem emit_inDirty : (emit b s).inDirty = s.inDirty := by rw [emit_frame]
@[simp] theorem emit_outBefore : (emit b s).outBefore = s.outBefore := by rw [emit_frame]
@[simp] theorem emit_outCapacity : (emit b s).outCapacity = s.outCapacity := by rw [emit_frame]
@[simp] theorem emit_draws : (emit b s).draws = s.draws := by rw [emit_frame]
@[simp] theorem emit_regData : (emit b s).regData = s.regData := by rw [emit_frame]
@[simp] theorem emit_outData : (emit b s).outData = s.outData := by rw [emit_frame]

@[simp] theorem emit_win : (emit b s).win = Memory.write s.win s.wptr.toNat b := by
  by_cases h : s.outCount < s.declSize
  · rw [emit_of_lt h]; rfl
  · rw [emit_of_not_lt h]; rfl

@[simp] theorem emit_wptr : (emit b s).wptr = s.wptr + 1 := by
  by_cases h : s.outCount < s.declSize
  · rw [emit_of_lt h]; rfl
  · rw [emit_of_not_lt h]; rfl

@[simp] theorem emit_fill : (emit b s).fill = if s.fill < 8192 then s.fill + 1 else 8192 := by
  by_cases h : s.outCount < s.declSize
  · rw [emit_of_lt h]; rfl
  · rw [emit_of_not_lt h]; rfl

theorem emit_out : (emit b s).out =
    if s.outCount < s.declSize then Memory.write s.out s.outCount.toNat b else s.out := by
  by_cases h : s.outCount < s.declSize
  · rw [emit_of_lt h, if_pos h]; rfl
  · rw [emit_of_not_lt h, if_neg h]; rfl

theorem emit_outCount : (emit b s).outCount = if s.outCount < s.declSize then s.outCount + 1 else s.outCount := by
  by_cases h : s.outCount < s.declSize
  · rw [emit_of_lt h, if_pos h]
  · rw [emit_of_not_lt h, if_neg h]; rfl

theorem emit_trunc : (emit b s).trunc = (s.trunc || !decide (s.outCount < s.declSize)) := by
  by_cases h : s.outCount < s.declSize
  · rw [emit_of_lt h]; simp [h]
  · rw [emit_of_not_lt h]; simp [h]

/-- The window after `emit`: the byte at WPTR, every other cell as before (R150). -/
theorem winRead_emit (p : WinIx) : winRead (emit b s) p = if p = s.wptr then b else winRead s p := by
  have := winRead_winWrite s.wptr b s p
  simpa [winRead, winWrite] using this

theorem emit_wptr_toNat : (emit b s).wptr.toNat = (s.wptr.toNat + 1) % 8192 := by
  simp [BitVec.toNat_add]

theorem emit_fill_toNat : (emit b s).fill.toNat = min (s.fill.toNat + 1) 8192 := by
  rw [emit_fill]
  by_cases h : s.fill < 8192
  · rw [if_pos h]; rw [BitVec.lt_def] at h; simp at h; simp [BitVec.toNat_add]; omega
  · rw [if_neg h]; rw [BitVec.lt_def] at h; simp at h; simp; omega

/-- OUT_COUNT + 1 does not wrap below DECL_SIZE. -/
theorem outCount_succ_toNat {s : State} (h : s.outCount.toNat < s.declSize.toNat) :
    (s.outCount + 1).toNat = s.outCount.toNat + 1 := by
  have := s.declSize.isLt
  simp [BitVec.toNat_add]; omega

theorem emit_outCount_toNat : (emit b s).outCount.toNat =
    if s.outCount.toNat < s.declSize.toNat then s.outCount.toNat + 1 else s.outCount.toNat := by
  rw [emit_outCount]
  by_cases h : s.outCount < s.declSize
  · rw [if_pos h, if_pos (BitVec.lt_def.1 h), outCount_succ_toNat (BitVec.lt_def.1 h)]
  · rw [if_neg h, if_neg (fun k => h (BitVec.lt_def.2 k))]

/-- The output after `emit`: within the budget the byte at OUT_COUNT, every other index as before (R150). -/
theorem outByte_emit (i : Nat) : outByte (emit b s) i =
    if s.outCount.toNat < s.declSize.toNat ∧ i = s.outCount.toNat then b else outByte s i := by
  have := outByte_outWrite s.outCount b s i
  simp only [outByte, emit_out, BitVec.lt_def]
  split
  · next h => simpa [h, outWrite, outByte] using this
  · next h => simp [h]

@[simp] theorem inByte_emit (i : Nat) : inByte (emit b s) i = inByte s i := by simp [inByte]

end

/-! ## The copy -/

/-- `REM − 1` is 0 exactly for REM = 1. -/
theorem rem_sub_one_eq_zero (r : BitVec 5) : r - 1 = 0 ↔ r = 1 := by
  constructor
  · intro h; have h2 := congrArg (· + 1) h; simpa using h2
  · intro h; subst h; rfl

theorem copyVisit_eq (s : State) : copyVisit s = { emit (winRead s s.src) s with
    src := s.src + 1, rem := s.rem - 1, ctl := if s.rem = 1 then .tok else s.ctl } := by
  have h : (if s.rem - 1 = 0 then Ctl.tok else (emit (winRead s s.src) s).ctl) =
      if s.rem = 1 then Ctl.tok else s.ctl := by
    rw [emit_ctl]
    by_cases h1 : s.rem = 1
    · rw [if_pos h1, if_pos ((rem_sub_one_eq_zero _).2 h1)]
    · rw [if_neg h1, if_neg (fun h => h1 ((rem_sub_one_eq_zero _).1 h))]
  unfold copyVisit
  simp only
  rw [h]

/-- The copy registers take no part in an emission. -/
theorem emit_withCopy (b : Byte) (u : State) (x : WinIx) (r : BitVec 5) (c : Ctl) :
    emit b { u with src := x, rem := r, ctl := c } = { emit b u with src := x, rem := r, ctl := c } := by
  by_cases h : u.outCount < u.declSize
  · rw [emit_of_lt h, emit_of_lt (s := { u with src := x, rem := r, ctl := c }) h]; rfl
  · rw [emit_of_not_lt h, emit_of_not_lt (s := { u with src := x, rem := r, ctl := c }) h]; rfl

theorem copyBytes_withCopy : ∀ (m : Nat) (p : WinIx) (u : State) (x : WinIx) (r : BitVec 5) (c : Ctl),
    copyBytes m p { u with src := x, rem := r, ctl := c } =
      { copyBytes m p u with src := x, rem := r, ctl := c } := by
  intro m
  induction m with
  | zero => intros; rfl
  | succ m ih =>
    intro p u x r c
    simp only [copyBytes]
    rw [show winRead { u with src := x, rem := r, ctl := c } p = winRead u p from rfl, emit_withCopy, ih]

/-- What a copy as one function may change. -/
theorem copyBytes_frame : ∀ (m : Nat) (p : WinIx) (u : State), copyBytes m p u = { u with
    win := (copyBytes m p u).win, wptr := (copyBytes m p u).wptr, fill := (copyBytes m p u).fill
    out := (copyBytes m p u).out, outCount := (copyBytes m p u).outCount, trunc := (copyBytes m p u).trunc } := by
  intro m
  induction m with
  | zero => intros; rfl
  | succ m ih =>
    intro p u
    have h1 := emit_frame (winRead u p) u
    have h2 := ih (p + 1) (emit (winRead u p) u)
    simp only [copyBytes]
    generalize copyBytes m (p + 1) (emit (winRead u p) u) = t at h2 ⊢
    rw [h2, h1]

/-- `n` COPY visits from a state with n ≥ 1 bytes left are the copy of `n` bytes as one function (R157). -/
theorem runs_copy : ∀ (n : Nat) (s : State), Quiet s → s.ctl = .copy → s.rem.toNat = n + 1 →
    runs (n + 1) s = .next { copyBytes (n + 1) s.src s with
      src := s.src + BitVec.ofNat 13 (n + 1), rem := 0, ctl := .tok } := by
  intro n
  induction n with
  | zero =>
    intro s q h hr
    have hr1 : s.rem = 1 := BitVec.eq_of_toNat_eq (by simpa using hr)
    rw [runs_succ_of_next (by rw [step_of_quiet q, coreStep_copy h]), copyVisit_eq, if_pos hr1, hr1]
    rfl
  | succ n ih =>
    intro s q h hr
    have hne : ¬ s.rem = 1 := by intro h1; rw [h1] at hr; simp at hr
    have hlt := s.rem.isLt
    have hrem : (s.rem - 1).toNat = n + 1 := by simp [BitVec.toNat_sub]; omega
    rw [runs_succ_of_next (by rw [step_of_quiet q, coreStep_copy h]), copyVisit_eq, if_neg hne]
    rw [ih { emit (winRead s s.src) s with src := s.src + 1, rem := s.rem - 1, ctl := s.ctl }
      (by simpa using q) h hrem]
    have hs : s.src + 1 + BitVec.ofNat 13 (n + 1) = s.src + BitVec.ofNat 13 (n + 1 + 1) := by
      apply BitVec.eq_of_toNat_eq; simp [BitVec.toNat_add]; omega
    simp only [copyBytes_withCopy, hs]
    rfl

end Sys2Proof.Machine
end

