-- ==== Sys2Proof/Laws/ReaderLocal.lean ====
section
/-! SUPPORT. What a read depends on: the reader's own registers and the input from CURSOR on, nothing else (R136,
R139). -/

namespace Sys2Proof.Machine

/-! ## The control registers take no part in a read -/

theorem refill_withCtl (s : State) (r : BitVec 5) (c : Ctl) :
    refill { s with rem := r, ctl := c } = { refill s with rem := r, ctl := c } := by
  unfold refill
  simp only
  split
  · unfold inRead; simp only; split <;> rfl
  · rfl

theorem refillUntil_withCtl (r : BitVec 5) (c : Ctl) (n : BitVec 5) : ∀ (fuel : Nat) (s : State),
    refillUntil fuel n { s with rem := r, ctl := c } = { refillUntil fuel n s with rem := r, ctl := c } := by
  intro fuel
  induction fuel with
  | zero => intro s; rfl
  | succ fuel ih =>
    intro s
    unfold refillUntil
    rw [refill_withCtl, ih]
    split <;> rfl

theorem afterRead_withCtl (n : BitVec 5) (s : State) (r : BitVec 5) (c : Ctl) :
    afterRead n { s with rem := r, ctl := c } = { afterRead n s with rem := r, ctl := c } := by
  unfold afterRead; rw [refillUntil_withCtl]; rfl

theorem readValue_withCtl (n : BitVec 5) (s : State) (r : BitVec 5) (c : Ctl) :
    readValue n { s with rem := r, ctl := c } = readValue n s := by
  unfold readValue; rw [refillUntil_withCtl]

/-! ## Nothing is drawn while the host has changed no input byte (R89) -/

theorem refillUntil_draws (n : BitVec 5) : ∀ (fuel : Nat) (s : State), s.inDirty = [] →
    (refillUntil fuel n s).draws = s.draws := by
  intro fuel
  induction fuel with
  | zero => intro s _; rfl
  | succ fuel ih =>
    intro s h
    have hr : (refill s).draws = s.draws := by
      unfold refill
      split
      · rw [inRead_of_clean h]; rfl
      · rfl
    unfold refillUntil
    split
    · rw [ih _ (by rw [refill_frame s]; exact h), hr]
    · rfl

theorem afterRead_draws {s : State} (h : s.inDirty = []) (n : BitVec 5) : (afterRead n s).draws = s.draws :=
  refillUntil_draws n 2 s h

/-! ## Two states whose readers are the same -/

/-- The reader and the input it has not passed yet are the same in both states. -/
structure SameReader (s t : State) : Prop where
  acc : t.acc = s.acc
  cnt : t.cnt = s.cnt
  cursor : t.cursor = s.cursor
  inLen : t.inLen = s.inLen
  inDirty : t.inDirty = s.inDirty
  draws : t.draws = s.draws
  bytes : ∀ i, s.cursor.toNat ≤ i → inByte t i = inByte s i

/-- A refill keeps two readers the same, and does the same to the underflow reports. -/
theorem SameReader.refill {s t : State} (h : SameReader s t) :
    SameReader (refill s) (refill t) ∧
    (t.uflow = s.uflow → t.uflowCount = s.uflowCount →
      (Machine.refill t).uflow = (Machine.refill s).uflow ∧
      (Machine.refill t).uflowCount = (Machine.refill s).uflowCount) := by
  have hb := h.bytes s.cursor.toNat (le_refl _)
  have hle : s.cursor < s.inLen → s.cursor.toNat ≤ (s.cursor + 1).toNat := by
    intro hl
    rw [BitVec.lt_def] at hl
    have := s.inLen.isLt
    simp [BitVec.toNat_add]; omega
  unfold Machine.refill
  rw [h.cursor, h.inLen]
  split
  · next hl =>
    unfold inRead
    simp only [h.inDirty, h.draws]
    split
    · exact ⟨⟨by simp [h.acc, h.cnt], by simp [h.cnt], rfl, h.inLen, rfl, rfl,
        fun i hi => h.bytes i (le_trans (hle hl) hi)⟩, fun h1 h2 => ⟨h1, h2⟩⟩
    · exact ⟨⟨by simp [h.acc, h.cnt, hb], by simp [h.cnt], rfl, h.inLen, h.inDirty, h.draws,
        fun i hi => h.bytes i (le_trans (hle hl) hi)⟩, fun h1 h2 => ⟨h1, h2⟩⟩
  · exact ⟨⟨by simp [h.acc, h.cnt], by simp [h.cnt], rfl, rfl, h.inDirty, h.draws, h.bytes⟩,
      fun _ h2 => ⟨rfl, by simp [h2]⟩⟩

theorem SameReader.refillUntil {n : BitVec 5} : ∀ (fuel : Nat) {s t : State}, SameReader s t →
    SameReader (refillUntil fuel n s) (refillUntil fuel n t) ∧
    (t.uflow = s.uflow → t.uflowCount = s.uflowCount →
      (Machine.refillUntil fuel n t).uflow = (Machine.refillUntil fuel n s).uflow ∧
      (Machine.refillUntil fuel n t).uflowCount = (Machine.refillUntil fuel n s).uflowCount) := by
  intro fuel
  induction fuel with
  | zero => exact fun h => ⟨h, fun h1 h2 => ⟨h1, h2⟩⟩
  | succ fuel ih =>
    intro s t h
    unfold Machine.refillUntil
    rw [h.cnt]
    split
    · obtain ⟨h1, h2⟩ := h.refill
      obtain ⟨h3, h4⟩ := ih h1
      exact ⟨h3, fun a b => h4 (h2 a b).1 (h2 a b).2⟩
    · exact ⟨h, fun h1 h2 => ⟨h1, h2⟩⟩

/-- The same reads give the same value and leave the readers the same. -/
theorem SameReader.read {s t : State} (h : SameReader s t) (n : BitVec 5) :
    readValue n t = readValue n s ∧ SameReader (afterRead n s) (afterRead n t) ∧
    (t.uflow = s.uflow → t.uflowCount = s.uflowCount →
      (afterRead n t).uflow = (afterRead n s).uflow ∧ (afterRead n t).uflowCount = (afterRead n s).uflowCount) := by
  obtain ⟨h1, h2⟩ := h.refillUntil (n := n) 2
  refine ⟨by unfold readValue; rw [h1.acc], ⟨?_, ?_, h1.cursor, h1.inLen, h1.inDirty, h1.draws, h1.bytes⟩, h2⟩
  · show (Machine.refillUntil 2 n t).acc >>> n.toNat = (Machine.refillUntil 2 n s).acc >>> n.toNat
    rw [h1.acc]
  · show (Machine.refillUntil 2 n t).cnt - n = (Machine.refillUntil 2 n s).cnt - n
    rw [h1.cnt]

end Sys2Proof.Machine
end

