-- ==== Sys2Proof/Laws/Fetch.lean ====
section
/-! SUPPORT. The decoder over the payload bits ahead, and the bit reader, take the same walk (R104, R107, R140). -/

namespace Sys2Proof.Machine

theorem readValue_lt (n : BitVec 5) (s : State) : (readValue n s).toNat < 2 ^ n.toNat := by
  unfold readValue lowBits
  rw [BitVec.toNat_ofNat]
  exact lt_of_le_of_lt (Nat.mod_le _ _) (Nat.mod_lt _ (by positivity))

theorem nextBits_length (s : State) (n : Nat) : (nextBits s n).length = n := by simp [nextBits]

theorem nextBits_take (s : State) {n m : Nat} (h : n ≤ m) : (nextBits s m).take n = nextBits s n := by
  simp [nextBits, ← List.map_take, List.take_range, Nat.min_eq_left h]

theorem nextBits_drop (s : State) (n m : Nat) :
    (nextBits s (n + m)).drop n = (List.range m).map fun j => nextBit s (n + j) := by
  apply List.ext_getElem
  · simp [nextBits]
  · intro i h1 h2
    simp [nextBits, List.getElem_drop]

/-- Emission leaves the bits ahead as they are. -/
@[simp] theorem nextBit_emit (b : Byte) (s : State) (j : Nat) : nextBit (emit b s) j = nextBit s j := by
  simp only [nextBit, emit_cnt, emit_acc, emit_cursor, emit_inLen, inByte_emit]

/-- Taking a field off the bits ahead is a read. -/
theorem takeField_nextBits {n : BitVec 5} (hn : n.toNat ≤ 16) {s : State} (ha : s.acc.toNat < 2 ^ s.cnt.toNat)
    (hd : s.inDirty = []) (m : Nat) :
    takeField n.toNat (nextBits s (n.toNat + m)) = some (readValue n s, nextBits (afterRead n s) m) := by
  obtain ⟨h1, h2⟩ := read_spec hn ha hd
  have hl : ¬ (nextBits s (n.toNat + m)).length < n.toNat := by rw [nextBits_length]; omega
  rw [takeField, if_neg hl, nextBits_take s (by omega), nextBits_drop, ← h1]
  simp only [BitVec.ofNat_toNat, BitVec.setWidth_eq]
  congr 2
  exact List.map_congr_left fun j _ => (h2 j).symm

/-- A read leaves a clean accumulator clean. -/
theorem acc_lt_afterRead {n : BitVec 5} (hn : n.toNat ≤ 16) {s : State} (ha : s.acc.toNat < 2 ^ s.cnt.toNat) :
    (afterRead n s).acc.toNat < 2 ^ (afterRead n s).cnt.toNat := by
  obtain ⟨h1, h2⟩ := refillUntil_spec hn s
  obtain ⟨h3, -⟩ := h2 ha
  rw [afterRead, dropBits_cnt_toNat h1, dropBits_acc, BitVec.toNat_ushiftRight, Nat.shiftRight_eq_div_pow,
    Nat.div_lt_iff_lt_mul (by positivity), ← Nat.pow_add, Nat.sub_add_cancel h1]
  exact h3

/-- The token the payload ahead decodes to, in terms of the reads the core makes. -/
theorem decode_nextBits {s : State} (ha : s.acc.toNat < 2 ^ s.cnt.toNat) (hd : s.inDirty = []) :
    decode (nextBits s 18) =
      if (readValue 1 s).setWidth 1 = (0 : BitVec 1) then
        .ok (.lit ((readValue 8 (afterRead 1 s)).setWidth 8), nextBits (afterRead 8 (afterRead 1 s)) 9)
      else if (readValue 4 (afterRead 1 s)).setWidth 4 = (15 : BitVec 4) then
        .ok (.endToken, nextBits (afterRead 4 (afterRead 1 s)) 13)
      else
        let s2 := afterRead 4 (afterRead 1 s)
        let raw : BitVec 4 := (readValue 4 (afterRead 1 s)).setWidth 4
        let off : BitVec 13 := (readValue 13 s2).setWidth 13
        .ok (if off = 0 then .matchZeroOffset raw else .matchRef raw off, nextBits (afterRead 13 s2) 0) := by
  have ha1 := acc_lt_afterRead (n := 1) (by decide) ha
  have hd1 : (afterRead 1 s).inDirty = [] := by rw [afterRead_inDirty]; exact hd
  have ha2 := acc_lt_afterRead (n := 4) (by decide) ha1
  have hd2 : (afterRead 4 (afterRead 1 s)).inDirty = [] := by rw [afterRead_inDirty]; exact hd1
  have t1 : takeField Stage.flag.width.toNat (nextBits s 18) = some (readValue 1 s, nextBits (afterRead 1 s) 17) :=
    takeField_nextBits (n := 1) (by decide) ha hd 17
  have t2 : takeField Stage.literal.width.toNat (nextBits (afterRead 1 s) 17) =
      some (readValue 8 (afterRead 1 s), nextBits (afterRead 8 (afterRead 1 s)) 9) :=
    takeField_nextBits (n := 8) (by decide) ha1 hd1 9
  have t3 : takeField Stage.length.width.toNat (nextBits (afterRead 1 s) 17) =
      some (readValue 4 (afterRead 1 s), nextBits (afterRead 4 (afterRead 1 s)) 13) :=
    takeField_nextBits (n := 4) (by decide) ha1 hd1 13
  have t4 : ∀ raw, takeField (Stage.offset raw).width.toNat (nextBits (afterRead 4 (afterRead 1 s)) 13) =
      some (readValue 13 (afterRead 4 (afterRead 1 s)), nextBits (afterRead 13 (afterRead 4 (afterRead 1 s))) 0) :=
    fun _ => takeField_nextBits (n := 13) (by decide) ha2 hd2 0
  unfold decode
  split
  · next h => rw [decodeFrom_more (stage := .flag) t1 (decodeField_flag_zero h), decodeFrom_token (stage := .literal) t2 rfl]
  · next h =>
    rw [decodeFrom_more (stage := .flag) t1 (decodeField_flag_one h)]
    split
    · next h2 => rw [decodeFrom_token (stage := .length) t3 (decodeField_length_sentinel h2)]
    · next h2 =>
      rw [decodeFrom_more (stage := .length) t3 (decodeField_length_raw h2)]
      simp only
      split
      · next h3 => exact decodeFrom_token (stage := .offset _) (t4 _) (decodeField_offset_zero _ h3)
      · next h3 => exact decodeFrom_token (stage := .offset _) (t4 _) (decodeField_offset_ne _ h3)

end Sys2Proof.Machine
end

