-- ==== Sys2Proof/Laws/Operands.lean ====
section
/-! SUPPORT. Operand assembly in numbers (R75, R105, R106, R155, R165). -/

namespace Sys2Proof.Machine

theorem matchSource_toNat (wptr : WinIx) (off : BitVec 13) :
    (matchSource wptr off).toNat = (wptr.toNat + 8192 - off.toNat) % 8192 := by
  have := wptr.isLt; have := off.isLt
  simp [matchSource, BitVec.toNat_sub]; omega

theorem beyondHistory_eq (off : BitVec 13) (fill : BitVec 14) :
    beyondHistory off fill = decide (fill.toNat < off.toNat) := by
  have := off.isLt
  simp only [beyondHistory, BitVec.lt_def]
  congr 1

theorem bigEndianWord_toNat (a b c d : Byte) :
    (bigEndianWord a b c d).toNat = a.toNat * 2 ^ 24 + b.toNat * 2 ^ 16 + c.toNat * 2 ^ 8 + d.toNat := by
  have := a.isLt; have := b.isLt; have := c.isLt; have := d.isLt
  simp only [bigEndianWord]
  rw [BitVec.toNat_append, BitVec.toNat_append, BitVec.toNat_append,
    ← Nat.shiftLeft_add_eq_or_of_lt (by omega), ← Nat.shiftLeft_add_eq_or_of_lt (by omega),
    ← Nat.shiftLeft_add_eq_or_of_lt (by omega)]
  simp only [Nat.shiftLeft_eq]
  omega

end Sys2Proof.Machine
end

