-- ==== Sys2Proof/Laws/Run.lean ====
section
/-! SUPPORT. What the header parse, the choice of who moves, one whole token and a host action can do, once (R183, R184,
R186, R197). -/

namespace Sys2Proof.Machine

/-! ## The header -/

/-- Reading the size changes nothing but the model's draw counter. -/
theorem readHeader_frame (s : State) : (readHeader s).2 = { s with draws := (readHeader s).2.draws } := by
  unfold readHeader
  simp only
  rw [inRead_frame 7, inRead_frame 6, inRead_frame 5, inRead_frame 4]

theorem readHeader_of_clean {s : State} (h : s.inDirty = []) :
    readHeader s = (bigEndianWord (inByte s 4) (inByte s 5) (inByte s 6) (inByte s 7), s) := by
  simp [readHeader, inRead_of_clean h]

/-- Everything the HDR step can answer: a malformed header, the refused launch, or the first token boundary. -/
theorem headerVisit_cases (s : State) :
    (s.inLen.toNat < 8 ∧ headerVisit s = some (raise .malformedHeader s)) ∨
    (8 ≤ s.inLen.toNat ∧ s.outCapacity < (readHeader s).1.toNat ∧ headerVisit s = none) ∨
    (8 ≤ s.inLen.toNat ∧ (readHeader s).1.toNat ≤ s.outCapacity ∧
      headerVisit s = some { s with
        declSize := (readHeader s).1, cursor := 8, ctl := .tok, draws := (readHeader s).2.draws }) := by
  unfold headerVisit
  by_cases hl : s.inLen.toNat < 8
  · exact .inl ⟨hl, if_pos (show s.inLen < Config.hdrLen from BitVec.lt_def.2 hl)⟩
  · right
    rw [if_neg (show ¬ s.inLen < Config.hdrLen from fun h => hl (BitVec.lt_def.1 h))]
    simp only
    by_cases hc : (readHeader s).1.toNat ≤ s.outCapacity
    · rw [if_pos hc]
      refine .inr ⟨by omega, hc, ?_⟩
      have h := readHeader_frame s
      generalize (readHeader s).2 = t at h ⊢
      rw [h]; rfl
    · rw [if_neg hc]
      exact .inl ⟨by omega, by omega, rfl⟩

/-! ## Who moves -/

/-- Every step is a visit of the core, or a host action, at the state whose list of host actions is shorter by the
entry taken (log 8). -/
theorem nextMover_cases (s : State) :
    (∃ rest, nextMover s = .core { s with inbox := rest }) ∨
    (∃ e rest, s.inbox = e :: rest ∧ nextMover s = .host e { s with inbox := rest }) := by
  cases h : s.inbox with
  | nil => exact .inl ⟨[], by unfold nextMover; rw [h]; simp only; rw [← h]⟩
  | cons e rest =>
    cases e
    case coreVisit => exact .inl ⟨rest, by unfold nextMover; rw [h]⟩
    all_goals exact .inr ⟨_, rest, rfl, by unfold nextMover; rw [h]⟩

/-! ## One whole token -/

/-- The body of the decode loop with its reads made. -/
theorem wholeToken_eq (s : State) : wholeToken s =
    let s1 := afterRead 1 s
    if (readValue 1 s).setWidth 1 = (0 : BitVec 1) then
      { emit ((readValue 8 s1).setWidth 8) (afterRead 8 s1) with ctl := .tok }
    else
      let s2 := afterRead 4 s1
      let raw : BitVec 4 := (readValue 4 s1).setWidth 4
      if raw = (15 : BitVec 4) then finish { s2 with sentinel := true }
      else
        let s3 := afterRead 13 s2
        let off : BitVec 13 := (readValue 13 s2).setWidth 13
        if off = 0 then raise .corruptStream { s3 with rem := matchLength raw }
        else
          { copyBytes (matchLength raw).toNat (matchSource s3.wptr off)
              { s3 with prehist := s3.prehist || beyondHistory off s3.fill } with
            src := matchSource s3.wptr off + (matchLength raw).setWidth 13
            rem := 0
            ctl := .tok } := by
  unfold wholeToken
  rw [show readBits Config.flagW s = _ from readBits_flag s, andThen_value,
    show readBits Config.litW (afterRead 1 s) = _ from readBits_literal _, andThen_value,
    show readBits Config.lenW (afterRead 1 s) = _ from readBits_length _, andThen_value]
  simp only
  rw [show readBits Config.offW (afterRead 4 (afterRead 1 s)) = _ from readBits_offset _, andThen_value]
  rfl

/-! ## The host -/

theorem busy_eq_true {s : State} : busy s = true ↔ s.ctl ≠ .idle := by simp [busy]

theorem busy_eq_false {s : State} : busy s = false ↔ s.ctl = .idle := by simp [busy]

/-- A host write to the input changes that byte and the model's record of it. -/
theorem hostWriteInput_frame (i : Word) (b : Byte) (s : State) : hostWriteInput i b s =
    { s with inp := Memory.write s.inp i.toNat b, inDirty := (hostWriteInput i b s).inDirty } := by
  unfold hostWriteInput; simp only; split <;> rfl

/-- A host read of the output changes nothing but its answer and the draw counter. -/
theorem hostReadOutput_frame (i : Word) (s : State) : hostReadOutput i s =
    { s with outData := (hostReadOutput i s).outData, draws := (hostReadOutput i s).draws } := by
  unfold hostReadOutput takeReadDraw; split <;> rfl

end Sys2Proof.Machine
end

