-- ==== Sys2Proof/Laws/HostSide.lean ====
section
/-! SUPPORT. The core's visits and the host's records take no part in each other: the list of host actions to come and
the answer to the host's last output read (log 8, log 20). -/

namespace Sys2Proof.Machine

theorem inRead_withHost (i : Word) (s : State) (l : List HostEvent) (d : Byte) :
    inRead i { s with inbox := l, outData := d } =
      ((inRead i s).1, { (inRead i s).2 with inbox := l, outData := d }) := by
  unfold inRead; simp only; split <;> rfl

theorem refill_withHost (s : State) (l : List HostEvent) (d : Byte) :
    refill { s with inbox := l, outData := d } = { refill s with inbox := l, outData := d } := by
  unfold refill
  simp only
  split
  · rw [inRead_withHost]; rfl
  · rfl

theorem refillUntil_withHost (n : BitVec 5) (l : List HostEvent) (d : Byte) : ∀ (fuel : Nat) (s : State),
    refillUntil fuel n { s with inbox := l, outData := d } =
      { refillUntil fuel n s with inbox := l, outData := d } := by
  intro fuel
  induction fuel with
  | zero => intro s; rfl
  | succ fuel ih => intro s; unfold refillUntil; rw [refill_withHost, ih]; split <;> rfl

theorem afterRead_withHost (n : BitVec 5) (s : State) (l : List HostEvent) (d : Byte) :
    afterRead n { s with inbox := l, outData := d } = { afterRead n s with inbox := l, outData := d } := by
  unfold afterRead; rw [refillUntil_withHost]; rfl

theorem readValue_withHost (n : BitVec 5) (s : State) (l : List HostEvent) (d : Byte) :
    readValue n { s with inbox := l, outData := d } = readValue n s := by
  unfold readValue; rw [refillUntil_withHost]

theorem emit_withHost (b : Byte) (s : State) (l : List HostEvent) (d : Byte) :
    emit b { s with inbox := l, outData := d } = { emit b s with inbox := l, outData := d } := by
  by_cases h : s.outCount < s.declSize
  · rw [emit_of_lt h, emit_of_lt (s := { s with inbox := l, outData := d }) h]; rfl
  · rw [emit_of_not_lt h, emit_of_not_lt (s := { s with inbox := l, outData := d }) h]; rfl

theorem headerVisit_withHost (s : State) (l : List HostEvent) (d : Byte) :
    headerVisit { s with inbox := l, outData := d } =
      (headerVisit s).map fun t => { t with inbox := l, outData := d } := by
  have h : readHeader { s with inbox := l, outData := d } =
      ((readHeader s).1, { (readHeader s).2 with inbox := l, outData := d }) := by
    unfold readHeader
    simp only [inRead_withHost]
  unfold headerVisit
  rw [h]
  simp only
  split
  · rfl
  · split <;> rfl

theorem applyOffset_withHost (off : BitVec 13) (s : State) (l : List HostEvent) (d : Byte) :
    applyOffset off { s with inbox := l, outData := d } =
      { applyOffset off s with inbox := l, outData := d } := by
  unfold applyOffset; split <;> rfl

/-- A visit of the core neither reads nor changes the host's records. -/
theorem coreStep_withHost (s : State) (l : List HostEvent) (d : Byte) :
    coreStep { s with inbox := l, outData := d } =
      mapNext (fun t => { t with inbox := l, outData := d }) (coreStep s) := by
  have key : ∀ c, s.ctl = c → coreStep { s with inbox := l, outData := d } =
      mapNext (fun t => { t with inbox := l, outData := d }) (coreStep s) := by
    intro c h
    cases c with
    | idle => rw [coreStep_idle h, coreStep_idle (s := { s with inbox := l, outData := d }) h]; rfl
    | hdr =>
      rw [coreStep_hdr h, coreStep_hdr (s := { s with inbox := l, outData := d }) h, headerVisit_withHost]
      cases headerVisit s <;> rfl
    | tok =>
      by_cases hle : s.declSize ≤ s.outCount
      · rw [coreStep_tok_of_le h hle, coreStep_tok_of_le (s := { s with inbox := l, outData := d }) h hle]; rfl
      · rw [coreStep_tok h hle, coreStep_tok (s := { s with inbox := l, outData := d }) h hle, afterRead_withHost,
          readValue_withHost]
        rfl
    | lit =>
      rw [coreStep_lit h, coreStep_lit (s := { s with inbox := l, outData := d }) h, afterRead_withHost,
        readValue_withHost, emit_withHost]
      rfl
    | mlen =>
      rw [coreStep_mlen h, coreStep_mlen (s := { s with inbox := l, outData := d }) h, afterRead_withHost,
        readValue_withHost]
      split <;> rfl
    | moff =>
      rw [coreStep_moff h, coreStep_moff (s := { s with inbox := l, outData := d }) h, afterRead_withHost,
        readValue_withHost]
      exact congrArg Host.Outcome.next (applyOffset_withHost _ { afterRead 13 s with rem := _ } l d)
    | copy =>
      rw [coreStep_copy h, coreStep_copy (s := { s with inbox := l, outData := d }) h, copyVisit_eq, copyVisit_eq]
      have e := emit_withHost (winRead s s.src) s l d
      exact congrArg (fun u => Host.Outcome.next
        { u with src := s.src + 1, rem := s.rem - 1, ctl := if s.rem = 1 then .tok else s.ctl }) e
  exact key _ rfl

/-! ## The host's read of the output (R85) -/

/-- A step, and the step the lookahead makes in its place, answer the same but for the answer to an output read. -/
theorem stepWith_takeReadDraw {s : State} (h : busy s = true) (d : Byte) :
    mapNext (fun t => { t with outData := 0 }) (stepWith (fun _ => takeReadDraw) { s with outData := d }) =
      mapNext (fun t => { t with outData := 0 }) (step s) := by
  have hb : (s.ctl != .idle) = true := h
  have core : ∀ s0 : State, nextMover s = .core s0 → nextMover { s with outData := d } = .core { s0 with outData := d } →
      mapNext (fun t => { t with outData := 0 }) (stepWith (fun _ => takeReadDraw) { s with outData := d }) =
        mapNext (fun t => { t with outData := 0 }) (step s) := by
    intro s0 h1 h2
    have e1 : stepWith (fun _ => takeReadDraw) { s with outData := d } = coreStep { s0 with outData := d } := by
      unfold stepWith; rw [h2]
    have e2 : coreStep { s0 with outData := d } =
        mapNext (fun t => { t with inbox := s0.inbox, outData := d }) (coreStep s0) :=
      coreStep_withHost s0 s0.inbox d
    have e3 : coreStep s0 = mapNext (fun t => { t with inbox := s0.inbox, outData := s0.outData }) (coreStep s0) :=
      coreStep_withHost s0 s0.inbox s0.outData
    rw [e1, step_of_core h1, e2]
    refine Eq.trans ?_ (congrArg (mapNext fun t => { t with outData := 0 }) e3).symm
    cases coreStep s0 <;> rfl
  have hl : s.inbox = [] ∨ ∃ e rest, s.inbox = e :: rest := by cases s.inbox <;> simp
  rcases hl with hi | ⟨e, rest, hi⟩
  · exact core s (nextMover_of_quiet hi) (nextMover_of_quiet (s := { s with outData := d }) hi)
  by_cases he : e = .coreVisit
  · subst he
    exact core _ (nextMover_of_coreVisit hi) (nextMover_of_coreVisit (s := { s with outData := d }) hi)
  · have e1 : stepWith (fun _ => takeReadDraw) { s with outData := d } =
        hostActionWith (fun _ => takeReadDraw) e { s with inbox := rest, outData := d } := by
      unfold stepWith; rw [nextMover_of_host (s := { s with outData := d }) hi he]
    rw [e1, step_of_host (nextMover_of_host hi he), hostAction]
    cases e <;> simp only [hostActionWith]
    case coreVisit => rfl
    case regWrite o w v =>
      split
      · simp only [mapNext, writeReg]
        split <;> simp only [writeCtrl, writeStatus, writeInLen, busy, hb]
        · simp
        · split <;> rfl
        · simp
      · rfl
    case regRead o w => split <;> rfl
    case inWrite i b => simp only [hostWriteInput, busy, hb, mapNext]; split <;> rfl
    case outWrite i b => simp only [busy, hb, if_true]
    case outRead i => simp only [hostReadOutput, takeReadDraw, busy, hb, if_true]; rfl
    case provideOut n => simp only [busy, hb, if_true]
    case hwReset => rfl

/-- The first step of a stretch of one run. -/
theorem duringRun_succ {k : Nat} {s u : State} : DuringRun (k + 1) s u ↔
    s.ctl ≠ .idle ∧ ∃ t, step s = .next t ∧ DuringRun k t u := by
  constructor
  · rintro ⟨h, hb⟩
    obtain ⟨w, hw, hc⟩ := hb 0 (Nat.zero_le _)
    cases hw
    refine ⟨hc, ?_⟩
    rw [runs_succ] at h
    cases hs : step s with
    | next t =>
      rw [hs] at h
      refine ⟨t, rfl, h, fun j hj => ?_⟩
      obtain ⟨w, hw, hc⟩ := hb (j + 1) (by omega)
      exact ⟨w, by rw [← runs_succ_of_next hs]; exact hw, hc⟩
    | fault r => rw [hs] at h; cases h
    | refused r => rw [hs] at h; cases h
  · rintro ⟨hc, t, hs, h, hb⟩
    refine ⟨by rw [runs_succ_of_next hs]; exact h, fun j hj => ?_⟩
    cases j with
    | zero => exact ⟨s, rfl, hc⟩
    | succ j =>
      obtain ⟨w, hw, hc⟩ := hb j (by omega)
      exact ⟨w, by rw [runs_succ_of_next hs]; exact hw, hc⟩

theorem DuringRun.busy {k : Nat} {s u : State} (h : DuringRun k s u) : u.ctl ≠ .idle := by
  obtain ⟨w, hw, hc⟩ := h.2 k (Nat.le_refl _)
  rw [h.1] at hw; cases hw; exact hc

/-- What the lookahead finds is what the steps of the run write: the byte at the index once OUT_COUNT has passed it,
or none if it passes it in no step the lookahead makes. -/
theorem byteToCome_cases (i : Word) : ∀ (fuel : Nat) (s : State) (d : Byte), s.ctl ≠ .idle →
    s.outCount.toNat ≤ i.toNat →
    (∃ b k u, byteToCome fuel i { s with outData := d } = some b ∧ k ≤ fuel ∧ DuringRun k s u ∧
      i.toNat < u.outCount.toNat ∧ outByte u i.toNat = b) ∨
    (byteToCome fuel i { s with outData := d } = none ∧
      ∀ k u, k ≤ fuel → DuringRun k s u → u.outCount.toNat ≤ i.toNat) := by
  intro fuel
  induction fuel with
  | zero =>
    intro s d hc hi
    refine .inr ⟨rfl, fun k u hk h => ?_⟩
    obtain rfl : k = 0 := by omega
    cases h.1; exact hi
  | succ fuel ih =>
    intro s d hc hi
    have none_of : (∀ t, step s = .next t → t.ctl = .idle) →
        ∀ k u, k ≤ fuel + 1 → DuringRun k s u → u.outCount.toNat ≤ i.toNat := by
      intro hx k u hk h
      cases k with
      | zero => cases h.1; exact hi
      | succ k =>
        obtain ⟨-, t, hs, ht⟩ := duringRun_succ.1 h
        obtain ⟨w, hw, hwc⟩ := ht.2 0 (Nat.zero_le _)
        cases hw
        exact absurd (hx t hs) hwc
    have agree := stepWith_takeReadDraw (busy_eq_true.2 hc) d
    unfold byteToCome
    generalize stepWith (fun _ => takeReadDraw) { s with outData := d } = o at agree ⊢
    cases hs : step s with
    | fault r =>
      rw [hs] at agree
      cases o <;> simp only [mapNext, reduceCtorEq] at agree
      exact .inr ⟨rfl, none_of (by simp [hs])⟩
    | refused r =>
      rw [hs] at agree
      cases o <;> simp only [mapNext, reduceCtorEq] at agree
      exact .inr ⟨rfl, none_of (by simp [hs])⟩
    | next t =>
      rw [hs] at agree
      cases o with
      | fault r => simp only [mapNext, reduceCtorEq] at agree
      | refused r => simp only [mapNext, reduceCtorEq] at agree
      | next t' =>
        obtain ⟨d', rfl⟩ : ∃ d', t' = { t with outData := d' } := by
          refine ⟨t'.outData, ?_⟩
          have h := congrArg (fun v => ({ v with outData := t'.outData } : State)) (Host.Outcome.next.inj agree)
          exact h
        simp only
        by_cases hb : t.ctl = .idle
        · rw [if_neg (by simp [busy, hb])]
          exact .inr ⟨rfl, none_of fun t1 h1 => by rw [hs] at h1; cases h1; exact hb⟩
        · rw [if_pos (show busy { t with outData := d' } = true from busy_eq_true.2 hb)]
          by_cases hlt : i.toNat < t.outCount.toNat
          · rw [if_pos (BitVec.lt_def.2 hlt)]
            refine .inl ⟨_, 1, t, rfl, by omega, duringRun_succ.2 ⟨hc, t, hs, rfl, fun j hj => ?_⟩, hlt, rfl⟩
            obtain rfl : j = 0 := by omega
            exact ⟨t, rfl, hb⟩
          · rw [if_neg (fun h => hlt (BitVec.lt_def.1 h))]
            rcases ih t d' hb (by omega) with ⟨b, k, u, e, hk, hr, hu⟩ | ⟨e, hr⟩
            · exact .inl ⟨b, k + 1, u, e, by omega, duringRun_succ.2 ⟨hc, t, hs, hr⟩, hu⟩
            · refine .inr ⟨e, fun k u hk h => ?_⟩
              cases k with
              | zero => cases h.1; exact hi
              | succ k =>
                obtain ⟨-, t1, h1, h2⟩ := duringRun_succ.1 h
                rw [hs] at h1; cases h1
                exact hr k u (by omega) h2

end Sys2Proof.Machine
end

