-- ==== Sys2Proof/Laws/PerInstr.lean ====
section
/-! SUPPORT. Statements made per token, one lemma for each constructor of Instr. -/

namespace Sys2Proof.Laws.EncodedLength

/-- The encoding of a token is as long as its format says, 5 to 18 bits, and its token integer fits that length
(R12, R100). -/
def Statement (i : Instr) : Prop :=
  (encode i).length = tokenLength i ∧ 5 ≤ tokenLength i ∧ tokenLength i ≤ 18 ∧ tokenInteger i < 2 ^ tokenLength i

theorem endToken : Statement .endToken := by
  refine ⟨length_bitsLsb _ _, ?_, ?_, ?_⟩ <;> decide

theorem matchZeroOffset (rawLength : BitVec 4) : Statement (.matchZeroOffset rawLength) := by
  have := rawLength.isLt
  refine ⟨length_bitsLsb _ _, ?_, ?_, ?_⟩ <;> simp only [tokenLength, tokenInteger] <;> omega

theorem matchRef (rawLength : BitVec 4) (offset : BitVec 13) : Statement (.matchRef rawLength offset) := by
  have := rawLength.isLt
  have := offset.isLt
  refine ⟨length_bitsLsb _ _, ?_, ?_, ?_⟩ <;> simp only [tokenLength, tokenInteger] <;> omega

theorem lit (b : Byte) : Statement (.lit b) := by
  have := b.isLt
  refine ⟨length_bitsLsb _ _, ?_, ?_, ?_⟩ <;> simp only [tokenLength, tokenInteger] <;> omega

end Sys2Proof.Laws.EncodedLength
end

