-- ==== Sys2Proof/Tests/Slice0.lean ====
section
/-! SUPPORT. Tests with results taken from spec/ (95_test_vectors.md, 30_encoding.md), and for each statement with
hypotheses a witness that meets them. -/

namespace Sys2Proof.Tests

open Sys2Proof.Machine

/-! ## Ill-formed terms -/

theorem test_wf_rawLength : WellFormed (.matchZeroOffset 15) = false := by decide
theorem test_wf_rawLength_match : WellFormed (.matchRef 15 1) = false := by decide
theorem test_wf_offset : WellFormed (.matchRef 0 0) = false := by decide
theorem test_wf_ends : WellFormed (.matchZeroOffset 14) = true ∧ WellFormed (.matchRef 0 1) = true ∧
    WellFormed (.matchRef 14 8191) = true ∧ WellFormed .endToken = true ∧ WellFormed (.lit 0xFF) = true := by decide

/-! ## Decoding: words written out from R100 to R103 and R115, T[L-1] leftmost -/

/-- R102, R115: END, 11111. -/
theorem test_decode_end : decodeTableWord 5 0b1_1111 = some .endToken := by decide
/-- R101, R115: LIT 0x41, LLLLLLLL0 with L = 0100_0001. -/
theorem test_decode_lit : decodeTableWord 9 0b0100_0001_0 = some (.lit 0x41) := by decide
/-- R103: MATCH raw_length 5, offset 0x1234 = 1_0010_0011_0100, OOOOOOOOOOOOORRRR1. -/
theorem test_decode_match : decodeTableWord 18 0b1_0010_0011_0100_0101_1 = some (.matchRef 5 0x1234) := by decide
/-- R109: MATCH raw_length 10 with offset 0, 0000000000000RRRR1. -/
theorem test_decode_matchZeroOffset : decodeTableWord 18 0b0_0000_0000_0000_1010_1 = some (.matchZeroOffset 10) := by
  decide
/-- R108: raw_length 15 is END, whatever follows. -/
theorem test_decode_end_first : decodeTableWord 24 0x3FFFF = some .endToken := by decide
/-- R76: the payload 82 3E of V1 begins with LIT 0x41, END. -/
theorem test_decode_v1 : (decodeBytes [0x82, 0x3E]).map (fun r => r.1) = .ok (.lit 0x41) ∧
    (decode ((payloadBits [0x82, 0x3E]).drop 9)).map (fun r => r.1) = .ok .endToken := by decide
/-- The decoder names why it refuses: fewer bits than the field needs. -/
theorem test_decode_truncated : decode [true, false] = .error .truncated ∧
    decode [] = .error .truncated ∧ decode (List.replicate 8 false) = .error .truncated ∧
    decode (true :: List.replicate 16 false) = .error .truncated := by decide
/-- R115: the token integers of the worked encodings. -/
theorem test_encode : tokenInteger (.lit 0x42) = 0x084 ∧ tokenInteger (.matchRef 3 2) = 0x00047 ∧
    tokenInteger (.matchRef 14 1) = 0x0003D ∧ tokenInteger .endToken = 0x1F := by decide
/-- P1: the assembler's stream of LIT 'A', LIT 'B', MATCH 6, 2. -/
theorem test_assemble_p1 : assemble 0 8 [.lit 0x41, .lit 0x42, .matchLine 6 2] =
    [0x00, 0x00, 0x00, 0x00, 0x00, 0x00, 0x00, 0x08, 0x82, 0x08, 0x1D, 0x01, 0x00] := by decide

/-! ## Small states -/

/-- The bytes of an input stream. -/
def withInput (bytes : List Byte) (s : State) : State :=
  { s with inp := Memory.writeAll [] 0 bytes, inLen := BitVec.ofNat 32 bytes.length }

/-- A run right after START on an input stream. -/
def started (bytes : List Byte) : State := start (withInput bytes State.reset)

/-- A run in some control state with a declared size, its header parsed, and these payload bytes to come. -/
def atVisit (c : Ctl) (size : Word) (payload : List Byte) : State :=
  { withInput ([0, 0, 0, 0, 0, 0, 0, 9] ++ payload) State.reset with cursor := 8, declSize := size, ctl := c }

/-- The state an outcome goes on with. -/
def nextOf : Host.Outcome State Fault Refusal → Option State
  | .next t => some t
  | .fault _ => none
  | .refused _ => none

/-- Some fields of the state an outcome goes on with. -/
def look {α : Type} (f : State → α) (o : Host.Outcome State Fault Refusal) : Option α := (nextOf o).map f

/-! ## The bit reader (95_test_vectors.md, 2.1) -/

/-- The value, ACC, CNT, CURSOR, UFLOW and UFLOW_COUNT of a read. -/
def readView : ReadResult → Option (BitVec 16 × BitVec 32 × BitVec 5 × BitVec 32 × Bool × BitVec 32)
  | .value v s => some (v, s.acc, s.cnt, s.cursor, s.uflow, s.uflowCount)
  | .violation _ => none

/-- RB2: a field that spans two bytes. -/
theorem test_read_spans : readView (readBits 8 { atVisit .tok 9 [0x5E] with acc := 0x5A, cnt := 7 }) =
    some (0x5A, 0x2F, 7, 9, false, 0) := by decide
/-- RB3: the largest fill, CNT reaches 23. -/
theorem test_read_widest : readView (readBits 16 { atVisit .tok 9 [0xAB] with acc := 0x7FFF, cnt := 15 }) =
    some (0xFFFF, 0x55, 7, 9, false, 0) := by decide
/-- RB6: two refills. -/
theorem test_read_twoRefills : readView (readBits 13 { atVisit .tok 9 [0x00, 0x80] with acc := 0x3, cnt := 2 }) =
    some (0x003, 0x10, 5, 10, false, 0) := by decide
/-- RB7: underflow keeps the 3 real bits. -/
theorem test_read_underflow : readView (readBits 8 { atVisit .tok 9 [] with acc := 0x5, cnt := 3 }) =
    some (0x05, 0x0, 3, 8, true, 1) := by decide
/-- RB10: UFLOW_COUNT is saturated. -/
theorem test_read_saturated : readView (readBits 1 { atVisit .tok 9 [] with uflowCount := 0xFFFFFFFF }) =
    some (0, 0x0, 7, 8, true, 0xFFFFFFFF) := by decide
/-- RB5: the width guard. -/
theorem test_read_guard : readBits 17 { atVisit .tok 9 [1, 2, 3] with acc := 0x5A, cnt := 7 } =
    .violation { atVisit .tok 9 [1, 2, 3] with acc := 0x5A, cnt := 7 } := by decide

/-! ## The tokens (95_test_vectors.md, 2.2) -/

/-- T1: the window cursor wraps. -/
theorem test_lit_wraps : look (fun t => (Memory.read? t.win 8191, t.wptr, Memory.read? t.out 0, t.outCount, t.ctl))
    (exec (.lit 0x7E) { atVisit .lit 9 [0x7E] with wptr := 8191 }) = some (some 0x7E, 0, some 0x7E, 1, .tok) := by
  decide
/-- R150: a literal at the declared size is dropped, but reaches the window. -/
theorem test_lit_dropped : look (fun t => (Memory.read? t.win 3, t.wptr, t.out.length, t.outCount, t.trunc))
    (exec (.lit 0x55) { atVisit .lit 3 [0x55] with wptr := 3, fill := 3, outCount := 3 }) =
    some (some 0x55, 4, 0, 3, true) := by decide
/-- T6: END. -/
theorem test_end : look (fun t => (t.sentinel, t.resultValid, t.done, t.outCount, t.ctl, t.cnt))
    (exec .endToken { atVisit .mlen 9 [0x0F] with outCount := 3 }) = some (true, true, true, 3, .idle, 4) := by decide
/-- T5: MATCH 7, 0. -/
theorem test_matchZeroOffset : look (fun t => (t.err, t.done, t.rem, t.wptr, t.cursor))
    (exec (.matchZeroOffset 4) { atVisit .moff 9 [0, 0] with rem := 7 }) =
    some (some .corruptStream, true, 7, 0, 10) := by decide
/-- T2: MATCH 4, 4 at WPTR 2: the source starts at cell 8190. -/
theorem test_match_source : look (fun t => (t.src, t.rem, t.prehist, t.ctl))
    (exec (.matchRef 1 4) { atVisit .moff 9 [4, 0] with wptr := 2, fill := 8192, rem := 4 }) =
    some (8190, 4, false, .copy) := by decide
/-- T8: MATCH 3, 5 at WPTR 2 and FILL 2: a pre-history reference. -/
theorem test_match_prehist : look (fun t => (t.src, t.rem, t.prehist, t.ctl))
    (exec (.matchRef 0 5) { atVisit .moff 9 [5, 0] with wptr := 2, fill := 2, rem := 3 }) =
    some (8189, 3, true, .copy) := by decide
/-- T3: a COPY step whose destination wraps: cell 8191 gets the byte of cell 8189, the source goes on to 8190. -/
theorem test_copy_wraps : look (fun t => (Memory.read? t.win 8191, t.wptr, t.src, t.rem, t.ctl))
    (step { atVisit .copy 9 [] with
      win := [(8188, 0x11), (8189, 0x22), (8190, 0x11)], wptr := 8191, fill := 8192, src := 8189, rem := 4 }) =
    some (some 0x22, 0, 8190, 3, .copy) := by decide

/-! ## Run control and the host (95_test_vectors.md, 2.3) -/

/-- H1: a header that is too short. -/
theorem test_header_short : look (fun t => (t.err, t.done, t.resultValid, t.declSize, t.cursor))
    (step (started [1, 2, 3, 4, 5, 6, 7])) = some (some .malformedHeader, true, false, 0, 0) := by decide
/-- H11: the size is big-endian. -/
theorem test_header_size : look (fun t => (t.declSize, t.cursor, t.ctl))
    (step (started [0, 0, 0, 0, 0x12, 0x34, 0x56, 0x78, 0x1F])) = some (0x12345678, 8, .tok) := by decide
/-- T11: at the declared size the TOK step reads no bit. -/
theorem test_tok_finishes : look (fun t => (t.resultValid, t.done, t.ctl, t.cursor, t.cnt))
    (step { atVisit .tok 2 [0xFF] with outCount := 2 }) = some (true, true, .idle, 8, 0) := by decide
/-- H6: START written while BUSY is ignored, IE is taken. -/
theorem test_start_busy : nextOf (hostAction (.regWrite 0 .word 3) (atVisit .mlen 9 [1])) =
    some { atVisit .mlen 9 [1] with ie := true } := by decide
/-- H8: clearing DONE drops IRQ and keeps ERR and the flags. -/
theorem test_clear_done : look (fun t => (irq t, t.done, t.err, t.uflow))
    (hostAction (.regWrite 4 .word 2)
      { atVisit .idle 9 [] with ie := true, done := true, err := some .corruptStream, uflow := true }) =
    some (false, false, some .corruptStream, true) := by decide
/-- R49: DONE, ERR 3, SENTINEL and PREHIST in STATUS. -/
theorem test_status_word : regValue { State.reset with
    done := true, err := some .corruptStream, sentinel := true, prehist := true } 0x04 = 0x14E := by decide
/-- R52: DBG_CTL and DBG_WIN. -/
theorem test_debug_words : regValue { State.reset with cnt := 7, rem := 17, ctl := .copy } 0x20 = 0x00061107 ∧
    regValue { State.reset with wptr := 0x1FFF, src := 0x0AAA } 0x24 = 0x0AAA1FFF := by decide
/-- A host action of the inbox is one step of its own, before the core moves (log 8). -/
theorem test_host_first : look (fun t => (t.inbox, t.inLen, t.ctl))
    (step { State.reset with inbox := [.regWrite 8 .word 10, .coreVisit] }) = some ([.coreVisit], 10, .idle) := by
  decide

/-! ## The first instruction after reset, one per row of the opcode table -/

theorem test_first_end : nextOf (step (State.reset.withFetchWord 5 0x1F)) =
    nextOf (exec .endToken (State.reset.withFetchWord 5 0x1F)) := by decide
theorem test_first_matchZeroOffset : nextOf (step (State.reset.withFetchWord 18 0x00009)) =
    nextOf (exec (.matchZeroOffset 4) (State.reset.withFetchWord 18 0x00009)) := by decide
theorem test_first_match : nextOf (step (State.reset.withFetchWord 18 0x0002F)) =
    nextOf (exec (.matchRef 7 1) (State.reset.withFetchWord 18 0x0002F)) := by decide
theorem test_first_lit : nextOf (step (State.reset.withFetchWord 9 0x082)) =
    nextOf (exec (.lit 0x41) (State.reset.withFetchWord 9 0x082)) := by decide

/-! ## Witnesses: for each statement with hypotheses, a state and operands that meet them -/

theorem witness_DecodeOfEncodeIsTheToken : WellFormed .endToken = true ∧ WellFormed (.matchZeroOffset 14) = true ∧
    WellFormed (.matchRef 14 8191) = true ∧ WellFormed (.lit 0) = true := by decide

theorem witness_EveryBitStringBeginsWithOneToken : 18 ≤ (List.replicate 18 true).length := by decide

theorem witness_MatchMaskFormOfTheOpcodeMap : 0x3FFFF < 2 ^ 18 ∧ 0x3FFFF &&& 0x1F = 0x1F ∧
    (0x0001D &&& 0x1F ≠ 0x1F ∧ 0x0001D &&& 0x3FFE1 = 0x00001) ∧
    (0x0003D &&& 0x1F ≠ 0x1F ∧ 0x0003D &&& 0x3FFE1 ≠ 0x00001 ∧ 0x0003D &&& 0x00001 = 0x00001) ∧
    0x3FFFE &&& 0x00001 ≠ 0x00001 := by decide

theorem witness_WideReadIsAViolation : 16 < (17 : BitVec 5).toNat ∧ 16 < (31 : BitVec 5).toNat := by decide

/-- A reader with 7 pending bits. -/
def pending : State := { atVisit .tok 9 [0x5E] with acc := 0x5A, cnt := 7 }

theorem pending_reader : ReaderInv pending := ⟨by decide, by decide⟩

theorem witness_ReadReturnsTheNextPayloadBits : (16 : BitVec 5).toNat ≤ 16 ∧ (0 : BitVec 5).toNat ≤ 16 ∧
    ReaderInv pending ∧ pending.inDirty = [] := ⟨by decide, by decide, pending_reader, rfl⟩

theorem witness_ReadMakesTheRefillsOfItsWidth : (16 : BitVec 5).toNat ≤ 16 ∧ pending.cnt.toNat ≤ 7 := by decide

theorem witness_ReadKeepsTheReaderInvariant : (16 : BitVec 5).toNat ≤ 16 ∧ ReaderInv pending :=
  ⟨by decide, pending_reader⟩

theorem witness_ReadHasNoOtherEffect : ∃ v t, readBits 8 pending = .value v t := ⟨_, _, readBits_literal _⟩

/-- A token boundary with the payload of V1. -/
def boundary : State := atVisit .tok 9 [0x82, 0x3E]

theorem boundary_reader : ReaderInv boundary := ⟨by decide, by decide⟩

theorem boundary_decode : ∃ rest, decode (nextBits boundary 18) = .ok (.lit 0x41, rest) :=
  ⟨[true, true, true, true, true, false, false, false, false], by decide⟩

theorem witness_TokenAdvancesThePositionByItsLength : ReaderInv boundary ∧ boundary.inDirty = [] ∧
    (∃ i rest, decode (nextBits boundary 18) = .ok (i, rest)) ∧ (wholeToken boundary).uflowCount ≠ 0xFFFFFFFF := by
  obtain ⟨rest, h⟩ := boundary_decode
  exact ⟨boundary_reader, rfl, ⟨_, rest, h⟩, by decide⟩

/-- The two clauses of emission: one byte left in the budget, and none. -/
theorem witness_EmitWritesOneByte :
    ({ atVisit .lit 3 [] with outCount := 2 } : State).outCount.toNat < 3 ∧
    (3 : Word).toNat ≤ ({ atVisit .lit 3 [] with outCount := 3 } : State).outCount.toNat := by decide

theorem witness_LitEmitsItsByte : (atVisit .lit 1 []).outCount.toNat < (atVisit .lit 1 []).declSize.toNat ∧
    (atVisit .lit 0 []).declSize.toNat ≤ (atVisit .lit 0 []).outCount.toNat := by decide

theorem witness_LitFrame : ∃ t, exec (.lit 0x41) boundary = .next t := ⟨_, exec_lit _ _⟩

theorem witness_MatchStartsTheCopy : (1 : BitVec 13) ≠ 0 ∧ (8191 : BitVec 13) ≠ 0 := by decide

theorem witness_RegisterTokensFrame : ∀ i ∈ [Instr.endToken, .matchZeroOffset 0, .matchRef 0 1],
    (∀ b, i ≠ .lit b) ∧ WellFormed i = true ∧ ∃ t, exec i boundary = .next t := by
  intro i hi
  simp only [List.mem_cons, List.not_mem_nil, or_false] at hi
  rcases hi with rfl | rfl | rfl <;> exact ⟨fun b h => by simp at h, by decide, exec_next _ _⟩

/-- A copy under way with its last byte to come. -/
def lastCopy : State := { atVisit .copy 3 [] with rem := 1, outCount := 2, wptr := 8191, src := 8190, fill := 8192 }

theorem witness_CopyVisitCopiesOneByte : nextMover lastCopy = .core lastCopy ∧ lastCopy.ctl = .copy ∧ lastCopy.rem = 1 ∧
    lastCopy.outCount.toNat < lastCopy.declSize.toNat ∧
    (atVisit .copy 0 []).declSize.toNat ≤ (atVisit .copy 0 []).outCount.toNat ∧ (atVisit .copy 0 []).ctl = .copy := by
  decide

theorem witness_MatchCopiesItsWholeLength : WellFormed (.matchRef 14 8191) = true ∧ Quiet (atVisit .moff 9 [0xFF, 0x1F]) := by
  decide

theorem witness_OverlappingMatchRepeatsItsBlock : WellFormed (.matchRef 14 1) = true ∧
    Quiet { atVisit .moff 9 [1, 0] with wptr := 8191 } ∧ 16 < (14 : BitVec 4).toNat + 3 := by decide

/-- A match that begins with one byte left, and one that begins with none. -/
theorem witness_MatchIsNeverCutShort : WellFormed (.matchRef 0 1) = true ∧
    Quiet { atVisit .moff 9 [1, 0] with outCount := 8 } ∧
    ({ atVisit .moff 9 [1, 0] with outCount := 8 } : State).outCount.toNat ≤ 9 ∧
    ({ atVisit .moff 9 [1, 0] with outCount := 9 } : State).outCount.toNat ≤ 9 ∧
    0 < (0 : BitVec 4).toNat + 3 ∧ 8 + 0 < (9 : Word).toNat := by decide

theorem witness_SourceTrailsByTheOffset : WellFormed (.matchRef 0 8191) = true ∧ Quiet boundary ∧
    (∃ t, exec (.matchRef 0 8191) boundary = .next t) ∧ 3 ≤ (0 : BitVec 4).toNat + 3 :=
  ⟨by decide, rfl, exec_next _ _, by decide⟩

/-- A visit for each side of the statement: a token boundary, and a header whose size the output memory lacks. -/
theorem witness_NoTokenStops : nextMover boundary = .core boundary ∧
    nextMover { started [0, 0, 0, 0, 0, 0, 0, 1] with outCapacity := 0 } =
      .core { started [0, 0, 0, 0, 0, 0, 0, 1] with outCapacity := 0 } ∧
    (nextOf (step { started [0, 0, 0, 0, 0, 0, 0, 1] with outCapacity := 0 })).isNone = true := by decide

theorem witness_StepRunsTheDecodedToken : ∃ s0 stage v s1 i, nextMover (atVisit .lit 9 [0x41]) = .core s0 ∧
    stageOf s0 = some stage ∧ (s0.ctl = .tok → s0.outCount.toNat < s0.declSize.toNat) ∧
    readBits stage.width s0 = .value v s1 ∧ decodeField stage v = .token i :=
  ⟨atVisit .lit 9 [0x41], .literal, _, _, _, rfl, rfl, fun h => absurd h (by decide), readBits_stage _ _, rfl⟩

/-- The same with the host's `coreVisit` first on the list. -/
theorem witness_StepRunsTheDecodedToken_inbox : ∃ s0, nextMover { atVisit .lit 9 [0x41] with inbox := [.coreVisit] } =
    .core s0 ∧ stageOf s0 = some .literal := ⟨atVisit .lit 9 [0x41], rfl, rfl⟩

theorem witness_MachineRunsTheTokenOfThePayload : Quiet boundary ∧ boundary.ctl = .tok ∧
    boundary.outCount.toNat < boundary.declSize.toNat ∧ ReaderInv boundary ∧ boundary.inDirty = [] ∧
    ∃ i rest, decode (nextBits boundary 18) = .ok (i, rest) := by
  obtain ⟨rest, h⟩ := boundary_decode
  exact ⟨rfl, rfl, by decide, boundary_reader, rfl, _, rest, h⟩

theorem witness_TokenBoundaryTestsSizeThenFlag : nextMover boundary = .core boundary ∧ boundary.ctl = .tok ∧
    boundary.outCount.toNat < boundary.declSize.toNat ∧
    ({ boundary with outCount := 9 } : State).declSize.toNat ≤ ({ boundary with outCount := 9 } : State).outCount.toNat := by
  decide

theorem witness_LengthVisitTestsTheSentinel : nextMover (atVisit .mlen 9 [0x0F]) = .core (atVisit .mlen 9 [0x0F]) ∧
    nextMover (atVisit .mlen 9 [0x0E]) = .core (atVisit .mlen 9 [0x0E]) ∧ (atVisit .mlen 9 [0x0F]).ctl = .mlen ∧
    (readValue 4 (atVisit .mlen 9 [0x0F])).toNat = 15 ∧ (readValue 4 (atVisit .mlen 9 [0x0E])).toNat = 14 := by decide

theorem witness_LastFieldVisits : nextMover (atVisit .lit 9 [0x41]) = .core (atVisit .lit 9 [0x41]) ∧ (atVisit .lit 9 [0x41]).ctl = .lit ∧
    (∀ r ∈ [(3 : BitVec 5), 17], nextMover { atVisit .moff 9 [0, 0] with rem := r } =
        .core { atVisit .moff 9 [0, 0] with rem := r } ∧
      ({ atVisit .moff 9 [0, 0] with rem := r } : State).ctl = .moff ∧ 3 ≤ r.toNat ∧ r.toNat ≤ 17) ∧
    (readValue 13 (atVisit .moff 9 [0, 0])).toNat = 0 ∧ (readValue 13 (atVisit .moff 9 [1, 0])).toNat = 1 := by decide

theorem witness_HeaderVisitParsesTheSize :
    nextMover (started [0, 0, 0, 0, 0, 0, 0]) = .core (started [0, 0, 0, 0, 0, 0, 0]) ∧
    (started [0, 0, 0, 0, 0, 0, 0]).ctl = .hdr ∧ (started [0, 0, 0, 0, 0, 0, 0]).inLen.toNat < 8 ∧
    8 ≤ (started [0, 0, 0, 0, 0xFF, 0xFF, 0xFF, 0xFF]).inLen.toNat ∧
    (started [0, 0, 0, 0, 0xFF, 0xFF, 0xFF, 0xFF]).inDirty = [] ∧
    0xFF * 2 ^ 24 + 0xFF * 2 ^ 16 + 0xFF * 2 ^ 8 + 0xFF ≤ (started [0, 0, 0, 0, 0xFF, 0xFF, 0xFF, 0xFF]).outCapacity := by
  decide

theorem witness_EmptyRunReadsNoPayload : Quiet (started [0, 0, 0, 0, 0, 0, 0, 0]) ∧
    (started [0, 0, 0, 0, 0, 0, 0, 0]).ctl = .hdr ∧ (started [0, 0, 0, 0, 0, 0, 0, 0]).outCount = 0 ∧
    8 ≤ (started [0, 0, 0, 0, 0, 0, 0, 0]).inLen.toNat ∧ (started [0, 0, 0, 0, 0, 0, 0, 0]).inDirty = [] ∧
    (∀ i ∈ [4, 5, 6, 7], Memory.read? (started [0, 0, 0, 0, 0, 0, 0, 0]).inp i = some 0) := by decide

theorem witness_UnderflowedOffsetReportsBoth : nextMover (atVisit .moff 9 []) = .core (atVisit .moff 9 []) ∧ (atVisit .moff 9 []).ctl = .moff ∧
    (atVisit .moff 9 []).acc = 0 ∧ (atVisit .moff 9 []).cnt.toNat ≤ 7 ∧
    (atVisit .moff 9 []).inLen.toNat ≤ (atVisit .moff 9 []).cursor.toNat := by decide

theorem witness_IdleWaits : Quiet State.reset ∧ State.reset.ctl = .idle := by decide

theorem witness_StartInitialisesTheRun : (atVisit .idle 9 [1]).ctl = .idle ∧ (1 : Word).getLsbD 0 = true := by decide

/-- Two idle states that an earlier run left different. -/
theorem witness_NothingOfAnEarlierRunSurvivesStart :
    let s := atVisit .idle 9 []
    let s' : State := { s with acc := 3, cnt := 2, wptr := 7, win := [(0, 1)], uflow := true, err := some .corruptStream }
    s.ctl = .idle ∧ s'.ctl = .idle ∧ (1 : Word).getLsbD 0 = true ∧ s.inLen = s'.inLen ∧ s.inp = s'.inp ∧ s.out = s'.out ∧
      s.inbox = s'.inbox ∧ s.outCapacity = s'.outCapacity ∧ s.draws = s'.draws ∧ s.regData = s'.regData ∧
      s.outData = s'.outData ∧ s ≠ s' := by decide

theorem witness_CtrlWriteWithoutStartSetsOnlyIe : (atVisit .copy 9 []).ctl ≠ .idle ∧ (2 : Word).getLsbD 0 = false := by decide

theorem witness_OtherRegisterWrites : ∀ offset ∈ [0x04, 0x08, 0x0C, 0x28, 0x2C], offset % 4 = 0 ∧ offset ≠ 0x00 := by decide

theorem witness_RegisterReads : (∀ offset ∈ [0x00, 0x28, 0x2C], offset % 4 = 0) ∧ 0x2C ≤ 0x2C := by decide

theorem witness_OnlyAlignedWordAccessesAreDefined : 0x02 % 4 ≠ 0 ∧ AccessWidth.byte ≠ .word ∧ AccessWidth.half ≠ .word := by
  decide

/-! ### States that meet the run invariant -/

theorem runInv_start (s : State) : RunInv (start s) := by
  refine ⟨⟨?_, ?_⟩, ?_, ?_, ?_, ?_, ?_, ?_, ?_, ?_, ?_, ?_, ?_, ?_, ?_, ?_, ?_, ?_, ?_, ?_, ?_⟩ <;> simp [start]
  · intro p; rfl

/-- A literal visit of a run that has emitted nothing. -/
theorem runInv_lit : RunInv (atVisit .lit 9 [0x41]) := by
  refine ⟨⟨?_, ?_⟩, ?_, ?_, ?_, ?_, ?_, ?_, ?_, ?_, ?_, ?_, ?_, ?_, ?_, ?_, ?_, ?_, ?_, ?_, ?_⟩ <;>
    simp [atVisit, withInput, State.reset]
  · intro p; rfl

/-- The end of a run whose declared size was 0 (H3). -/
def ended : State := { atVisit .idle 0 [] with done := true, resultValid := true }

theorem runInv_ended : RunInv ended := by
  refine ⟨⟨?_, ?_⟩, ?_, ?_, ?_, ?_, ?_, ?_, ?_, ?_, ?_, ?_, ?_, ?_, ?_, ?_, ?_, ?_, ?_, ?_, ?_⟩ <;>
    simp [ended, atVisit, withInput, State.reset]
  · intro p; rfl

/-- Each clause: a visit that ends the run, a write that clears DONE, one that clears IE, a START. -/
theorem witness_IrqFollowsDoneAndIe :
    (nextMover (start State.reset) = .core (start State.reset) ∧ RunInv (start State.reset) ∧ (start State.reset).ctl ≠ .idle ∧
      ∃ t, step (start State.reset) = .next t) ∧
    (2 : Word).getLsbD 1 = true ∧ (0 : Word).getLsbD 1 = false ∧ State.reset.ctl = .idle ∧ (3 : Word).getLsbD 0 = true :=
  ⟨⟨rfl, runInv_start _, by decide, raise .malformedHeader (start State.reset), rfl⟩, by decide, by decide, rfl, by decide⟩

theorem witness_HostCannotDisturbARun : boundary.ctl ≠ .idle ∧ HostEvent.inWrite 8 0xFF ≠ .hwReset ∧
    ∃ t, hostAction (.inWrite 8 0xFF) boundary = .next t := ⟨by decide, by decide, _, rfl⟩

theorem witness_InputWriteDuringARunMakesItsReadsDraws : State.reset.ctl = .idle ∧ boundary.ctl ≠ .idle ∧
    (9 : Word) ≠ 8 := by decide

/-- Each clause: IDLE; a run that has written the index, one that will write it, and one that never does. The draw
itself is free: one of its two values meets each of the two clauses that speak of it. -/
theorem witness_OutputReadReturnsOldOrNew : State.reset.ctl = .idle ∧
    (boundary.ctl ≠ .idle ∧ boundary.outCount.toNat ≤ (0 : Word).toNat) ∧
    (0 : Word).toNat < ({ boundary with outCount := 1 } : State).outCount.toNat ∧
    (Config.drawNew boundary.draws = false ∨ Config.drawNew boundary.draws = true) :=
  ⟨rfl, by decide, by decide, by cases Config.drawNew boundary.draws <;> simp⟩

/-- V1: the byte that the run under way will write at index 0 is 'A', and it writes none at index 1. -/
theorem test_byteToCome : byteToCome 8 0 boundary = some 0x41 ∧ byteToCome 8 1 boundary = none := by decide
/-- R85: while BUSY the read takes one of the bytes, before the run 0x55 and after it 0x41. -/
theorem test_outRead_busy : (hostReadOutput 0 { boundary with out := [(0, 0x55)], outBefore := [(0, 0x55)] }).outData = 0x41 ∨
    (hostReadOutput 0 { boundary with out := [(0, 0x55)], outBefore := [(0, 0x55)] }).outData = 0x55 := by
  unfold hostReadOutput
  cases Config.drawNew _ <;> decide

theorem witness_OutputMemoryRaceStops : boundary.ctl ≠ .idle ∧ State.reset.ctl = .idle := by decide

theorem witness_EveryStepKeepsTheRunInvariant : RunInv (atVisit .lit 9 [0x41]) ∧
    ∃ t, step (atVisit .lit 9 [0x41]) = .next t :=
  ⟨runInv_lit, _, (step_of_quiet rfl).trans (coreStep_lit rfl)⟩

theorem witness_EveryStepKeepsTheMemoryForm : MemoryInv (start State.reset) ∧ ∃ t, step (start State.reset) = .next t :=
  ⟨⟨rfl, rfl, rfl, rfl, fun _ _ => rfl⟩, raise .malformedHeader (start State.reset), rfl⟩

theorem witness_EveryVisitKeepsTheHistory :
    nextMover (atVisit .lit 9 [0x41]) = .core (atVisit .lit 9 [0x41]) ∧ RunInv (atVisit .lit 9 [0x41]) ∧
    History (atVisit .lit 9 [0x41]) [] ∧ ∃ t, step (atVisit .lit 9 [0x41]) = .next t :=
  ⟨rfl, runInv_lit, ⟨rfl, fun k h => absurd h (Nat.not_lt_zero k), fun _ _ _ => rfl, rfl,
    fun k h => absurd h (Nat.not_lt_zero k)⟩,
    _, (step_of_quiet rfl).trans (coreStep_lit rfl)⟩

/-- A visit of the core made while a host action waits behind its turn. -/
theorem witness_OutputIsWrittenInOrder : ∃ t,
    nextMover { atVisit .lit 9 [0x41] with inbox := [.coreVisit, .outRead 0] } =
      .core { atVisit .lit 9 [0x41] with inbox := [.outRead 0] } ∧
    step { atVisit .lit 9 [0x41] with inbox := [.coreVisit, .outRead 0] } = .next t :=
  ⟨_, rfl, (step_of_core rfl).trans (coreStep_lit rfl)⟩

theorem witness_EveryRunEnds : Quiet (started [0, 0, 0, 0, 0, 0, 0, 1]) ∧ RunInv (started [0, 0, 0, 0, 0, 0, 0, 1]) ∧
    (started [0, 0, 0, 0, 0, 0, 0, 1]).ctl = .hdr ∧
    (readHeader (started [0, 0, 0, 0, 0, 0, 0, 1])).1.toNat ≤ (started [0, 0, 0, 0, 0, 0, 0, 1]).outCapacity :=
  ⟨rfl, runInv_start _, rfl, by decide⟩

theorem witness_EndOfRunReports : RunInv ended ∧ ended.done = true := ⟨runInv_ended, rfl⟩

theorem witness_VisitsMakeTheWholeRun : Quiet (started [0, 0, 0, 0, 0, 0, 0, 5, 0x82, 0x3E]) ∧
    (started [0, 0, 0, 0, 0, 0, 0, 5, 0x82, 0x3E]).ctl = .hdr ∧
    (headerVisit (started [0, 0, 0, 0, 0, 0, 0, 5, 0x82, 0x3E])).isSome = true := by decide

theorem witness_StepTakesTheOldestHostAction :
    (({ boundary with inbox := [.inWrite 8 0xFF] } : State).inbox = .inWrite 8 0xFF :: [] ∧
      HostEvent.inWrite 8 0xFF ≠ .coreVisit) ∧
    ({ boundary with inbox := [.coreVisit, .hwReset] } : State).inbox = .coreVisit :: [.hwReset] ∧ Quiet boundary := by
  decide

theorem witness_UnreachedOutputIsAsAtStart : OutBeforeInv (start State.reset) ∧ (start State.reset).ctl ≠ .idle ∧
    ∃ t, step (start State.reset) = .next t :=
  ⟨fun _ _ _ => rfl, by decide, raise .malformedHeader (start State.reset), rfl⟩

theorem witness_ReportsAreNeverRead : Quiet boundary ∧
    withoutReports boundary = withoutReports { boundary with uflow := true, trunc := true, prehist := true } := by decide

/-- The tag changed in its first and last byte, the rest as it was. -/
theorem witness_TagIsNeverRead : Quiet (atVisit .lit 9 [0x41]) ∧ RunInv (atVisit .lit 9 [0x41]) ∧
    (∀ i, 4 ≤ i → Memory.read? (Memory.write (Memory.write (atVisit .lit 9 [0x41]).inp 0 0x48) 3 0x31) i =
      Memory.read? (atVisit .lit 9 [0x41]).inp i) := by
  refine ⟨rfl, runInv_lit, fun i hi => ?_⟩
  rw [Memory.read?_write_of_ne _ _ (by omega), Memory.read?_write_of_ne _ _ (by omega)]

end Sys2Proof.Tests
end

/-! ## The history of emitted bytes (R39, R166, R188) and refused register accesses (R54)

The history depends on six fields of the state, its stores. A visit that emits no byte keeps them, one
that emits a byte leaves them as `emit` does, and `emit` adds its byte to the history. The header parse alone writes one
of them, DECL_SIZE, while the history is still empty. -/

namespace Sys2Proof.Machine

/-! ### The stores of an emission -/

/-- What a history speaks of: the window, the output, and the registers that say how far they are filled. -/
structure Stores where
  win : Memory
  wptr : WinIx
  fill : BitVec 14
  out : Memory
  outCount : Word
  declSize : Word

/-- The stores of a state. -/
def stores (s : State) : Stores := ⟨s.win, s.wptr, s.fill, s.out, s.outCount, s.declSize⟩

theorem stores_eq_iff {s t : State} : stores t = stores s ↔
    t.win = s.win ∧ t.wptr = s.wptr ∧ t.fill = s.fill ∧ t.out = s.out ∧ t.outCount = s.outCount ∧
      t.declSize = s.declSize := by
  simp only [stores, Stores.mk.injEq]

/-- A read keeps the stores (R136). -/
theorem stores_afterRead (n : BitVec 5) (s : State) : stores (afterRead n s) = stores s := by
  simp [stores_eq_iff]

/-- Applying an offset keeps the stores, also an offset of 0 (R155, R158). -/
theorem stores_applyOffset (off : BitVec 13) (s : State) : stores (applyOffset off s) = stores s := by
  unfold applyOffset
  split <;> rfl

/-- What `emit` stores depends only on the stores it starts from. -/
theorem stores_emit_congr {s t : State} (h : stores t = stores s) (b : Byte) :
    stores (emit b t) = stores (emit b s) := by
  obtain ⟨hwin, hwptr, hfill, hout, hcount, hdecl⟩ := stores_eq_iff.1 h
  simp only [stores, emit_win, emit_wptr, emit_fill, emit_out, emit_outCount, emit_declSize, *]

/-- Two states with the same stores have the same history. -/
theorem History.of_stores_eq {s t : State} {h : List Byte} (hs : History s h) (same : stores t = stores s) :
    History t h := by
  obtain ⟨hwin, hwptr, hfill, hout, hcount, hdecl⟩ := stores_eq_iff.1 same
  have hw : ∀ p, winRead t p = winRead s p := fun p => by simp only [winRead, hwin]
  have ho : ∀ i, outByte t i = outByte s i := fun i => by simp only [outByte, hout]
  constructor
  · simpa only [hfill] using hs.fill_eq
  · simpa only [hfill, hwptr, hw] using hs.window
  · simpa only [hfill, hwptr, hw] using hs.beyond
  · simpa only [hcount, hdecl] using hs.count
  · simpa only [hcount, ho] using hs.output

/-! ### START and emission -/

/-- After START the window holds WINDOW_INIT in every cell and nothing is emitted (R181). -/
theorem history_start (s : State) : History (start s) [] where
  fill_eq := rfl
  window k hk := absurd hk (Nat.not_lt_zero k)
  beyond _ _ _ := rfl
  count := by simp
  output i hi := absurd hi (Nat.not_lt_zero i)

/-- The cell `k + 2` behind the new write cursor is the cell `k + 1` behind the old one. -/
theorem wptr_succ_sub (w : WinIx) (k : Nat) : w + 1 - BitVec.ofNat 13 (k + 1 + 1) = w - BitVec.ofNat 13 (k + 1) := by
  bv_omega

/-- Among the 8192 cells only the last one behind the write cursor is the cursor's own. -/
theorem wptr_sub_ne {k : Nat} (hk : k + 1 < 8192) (w : WinIx) : w - BitVec.ofNat 13 (k + 1) ≠ w := by
  bv_omega

/-- The newest cell behind the write cursor is the one just written (R150). -/
theorem winRead_emit_newest (b : Byte) (s : State) :
    winRead (emit b s) ((emit b s).wptr - BitVec.ofNat 13 (0 + 1)) = b := by
  rw [winRead_emit, emit_wptr, if_pos (by simp)]

/-- Seen from the write cursor, an emission moves every other cell one place back. -/
theorem winRead_emit_older (b : Byte) (s : State) {k : Nat} (hk : k + 1 < 8192) :
    winRead (emit b s) ((emit b s).wptr - BitVec.ofNat 13 (k + 1 + 1)) =
      winRead s (s.wptr - BitVec.ofNat 13 (k + 1)) := by
  rw [winRead_emit, emit_wptr, wptr_succ_sub, if_neg (wptr_sub_ne hk s.wptr)]

/-- Within the budget every emitted byte is in the output (R150). -/
theorem History.length_eq {s : State} {h : List Byte} (hs : History s h)
    (hlt : s.outCount.toNat < s.declSize.toNat) : s.outCount.toNat = h.length := by
  have := hs.count
  omega

/-- An emission puts its byte in front of the history (R39, R150, R166). -/
theorem History.emit {s : State} {h : List Byte} (hs : History s h) (b : Byte) :
    History (Machine.emit b s) (b :: h) where
  fill_eq := by
    have := hs.fill_eq
    rw [emit_fill_toNat, List.length_cons]
    omega
  window k hk := by
    rw [emit_fill_toNat] at hk
    cases k with
    | zero => rw [winRead_emit_newest]; rfl
    | succ k =>
      rw [winRead_emit_older b s (by omega), List.getElem?_cons_succ]
      exact hs.window k (by omega)
  beyond k hk hlt := by
    rw [emit_fill_toNat] at hk
    cases k with
    | zero => omega
    | succ k =>
      rw [winRead_emit_older b s hlt, emit_wptr, wptr_succ_sub]
      exact hs.beyond k (by omega) (by omega)
  count := by
    have := hs.count
    rw [emit_outCount_toNat, emit_declSize, List.length_cons]
    split <;> omega
  output i hi := by
    have hcount := hs.count
    rw [emit_outCount_toNat] at hi
    rw [outByte_emit, List.reverse_cons]
    by_cases hnew : s.outCount.toNat < s.declSize.toNat ∧ i = s.outCount.toNat
    · rw [if_pos hnew, hnew.2, hs.length_eq hnew.1, ← List.length_reverse, List.getElem?_concat_length]
    · have hold : i < s.outCount.toNat := by
        split at hi <;> omega
      rw [if_neg hnew, List.getElem?_append_left (by rw [List.length_reverse]; omega)]
      exact hs.output i hold

/-! ### The visits -/

theorem emittedBy_lit {s : State} (hc : s.ctl = .lit) : emittedBy s = some ((readValue 8 s).setWidth 8) := by
  simp only [emittedBy, hc]
  rw [show readBits Config.litW s = _ from readBits_literal s]

theorem emittedBy_copy {s : State} (hc : s.ctl = .copy) : emittedBy s = some (winRead s s.src) := by
  simp only [emittedBy, hc]

/-- A visit that emits a byte leaves the stores as `emit` does (R152, R156). -/
theorem stores_coreStep_of_some {s t : State} {b : Byte} (he : emittedBy s = some b) (h : coreStep s = .next t) :
    stores t = stores (emit b s) := by
  cases hc : s.ctl
  case lit =>
    rw [emittedBy_lit hc] at he
    rw [coreStep_lit hc] at h
    cases he
    cases h
    exact stores_emit_congr (stores_afterRead 8 s) _
  case copy =>
    rw [emittedBy_copy hc] at he
    rw [coreStep_copy hc, copyVisit_eq] at h
    cases he
    cases h
    rfl
  all_goals simp only [emittedBy, hc, reduceCtorEq] at he

/-- A visit that emits no byte keeps the stores, apart from the header parse, which writes DECL_SIZE (R184). -/
theorem stores_coreStep_of_none {s t : State} (he : emittedBy s = none) (hh : s.ctl ≠ .hdr)
    (h : coreStep s = .next t) : stores t = stores s := by
  cases hc : s.ctl
  case hdr => exact absurd hc hh
  case lit => exact absurd ((emittedBy_lit hc).symm.trans he) (Option.some_ne_none _)
  case copy => exact absurd ((emittedBy_copy hc).symm.trans he) (Option.some_ne_none _)
  case idle =>
    rw [coreStep_idle hc] at h
    cases h
    rfl
  case tok =>
    by_cases hle : s.declSize ≤ s.outCount
    · rw [coreStep_tok_of_le hc hle] at h
      cases h
      rfl
    · rw [coreStep_tok hc hle] at h
      cases h
      exact stores_afterRead 1 s
  case mlen =>
    rw [coreStep_mlen hc] at h
    split at h <;> cases h <;> exact stores_afterRead 4 s
  case moff =>
    rw [coreStep_moff hc] at h
    cases h
    exact (stores_applyOffset _ _).trans (stores_afterRead 13 s)

/-- At the HDR step nothing has been emitted (R181). -/
theorem History.eq_nil_of_hdr {s : State} {h : List Byte} (hs : History s h) (hinv : RunInv s)
    (hc : s.ctl = .hdr) : h = [] := by
  obtain ⟨-, -, hfill, -⟩ := hinv.fresh hc
  have hmin : 0 = min h.length 8192 := (congrArg BitVec.toNat hfill).symm.trans hs.fill_eq
  exact List.length_eq_zero_iff.1 (by omega)

/-- The header parse keeps the empty history, whatever size it reads (R183, R184). -/
theorem History.headerStep {s t : State} {h : List Byte} (hs : History s h) (hinv : RunInv s) (hc : s.ctl = .hdr)
    (hstep : coreStep s = .next t) : History t h := by
  obtain rfl := hs.eq_nil_of_hdr hinv hc
  rw [coreStep_hdr hc] at hstep
  obtain ⟨-, hv⟩ | ⟨-, -, hv⟩ | ⟨-, -, hv⟩ := headerVisit_cases s <;> rw [hv] at hstep <;> cases hstep
  · exact hs.of_stores_eq rfl
  · exact ⟨hs.fill_eq, hs.window, hs.beyond, hs.count.trans (by simp), hs.output⟩

/-- A visit of the core puts the byte it emits, if any, in front of the history. -/
theorem History.coreStep {s t : State} {h : List Byte} (hs : History s h) (hinv : RunInv s)
    (hstep : Machine.coreStep s = .next t) : History t ((emittedBy s).toList ++ h) := by
  cases he : emittedBy s with
  | some b => exact (hs.emit b).of_stores_eq (stores_coreStep_of_some he hstep)
  | none =>
    by_cases hc : s.ctl = .hdr
    · exact hs.headerStep hinv hc hstep
    · exact hs.of_stores_eq (stores_coreStep_of_none he hc hstep)

/-- Settles O50: START begins an empty history, and a visit of the core adds the byte it emits to it. -/
theorem everyVisitKeepsTheHistory : Obligations.EveryVisitKeepsTheHistory := by
  refine ⟨history_start, fun s s0 t h hcore hinv hs hstep => ?_⟩
  rw [step_of_core hcore] at hstep
  exact hs.coreStep hinv hstep

/-! ### Refused register accesses -/

/-- Only a word access at a multiple of 4 is defined (R54). -/
theorem alignedWord_eq_true {offset : Nat} {width : AccessWidth} :
    alignedWord offset width = true ↔ offset % 4 = 0 ∧ width = .word := by
  simp [alignedWord]

theorem hostAction_regRead_of_not_aligned {offset : Nat} {width : AccessWidth}
    (h : ¬ alignedWord offset width = true) (s : State) :
    hostAction (.regRead offset width) s = .refused .registerAccessNotAlignedWord := if_neg h

theorem hostAction_regWrite_of_not_aligned {offset : Nat} {width : AccessWidth}
    (h : ¬ alignedWord offset width = true) (v : Word) (s : State) :
    hostAction (.regWrite offset width v) s = .refused .registerAccessNotAlignedWord := if_neg h

/-- Settles O41: an access of another width or alignment fails the port's one test. -/
theorem onlyAlignedWordAccessesAreDefined : Obligations.OnlyAlignedWordAccessesAreDefined := by
  intro s offset width v h
  have hna : ¬ alignedWord offset width = true := by
    rw [alignedWord_eq_true]
    exact fun ⟨hoff, hwidth⟩ => h.elim (· hoff) (· hwidth)
  exact ⟨hostAction_regRead_of_not_aligned hna s, hostAction_regWrite_of_not_aligned hna v s⟩

end Sys2Proof.Machine

/-! ## The output is written in increasing order (R84)

A visit changes the output and OUT_COUNT by what it emits. So a visit that emits no byte leaves both alone, and for one
that emits a byte the claim is a fact about `emit`. -/

namespace Sys2Proof.Machine

/-- What R84 allows a visit from `s` to `t`: it leaves the output and OUT_COUNT alone, or it writes no index but
OUT_COUNT, below DECL_SIZE, and counts it. -/
def WritesInOrder (s t : State) : Prop :=
  (t.out = s.out ∧ t.outCount = s.outCount) ∨
  (s.outCount.toNat < s.declSize.toNat ∧ t.declSize = s.declSize ∧
    t.outCount.toNat = s.outCount.toNat + 1 ∧
    ∀ i, i ≠ s.outCount.toNat → outByte t i = outByte s i)

/-- The rule of R84 speaks of the stores alone. -/
theorem WritesInOrder.of_stores_eq {s t u : State} (h : WritesInOrder s t) (same : stores u = stores t) :
    WritesInOrder s u := by
  obtain ⟨-, -, -, hout, hcount, hdecl⟩ := stores_eq_iff.1 same
  simpa only [WritesInOrder, outByte, hout, hcount, hdecl] using h

/-- Within the budget `emit` writes the byte at OUT_COUNT and counts it; past it, it drops the byte (R150). -/
theorem writesInOrder_emit (b : Byte) (s : State) : WritesInOrder s (emit b s) := by
  by_cases hlt : s.outCount < s.declSize
  · have hbelow : s.outCount.toNat < s.declSize.toNat := BitVec.lt_def.1 hlt
    refine .inr ⟨hbelow, emit_declSize b s, ?_, fun i hi => ?_⟩
    · rw [emit_outCount_toNat, if_pos hbelow]
    · rw [outByte_emit, if_neg fun h => hi h.2]
  · exact .inl ⟨by rw [emit_out, if_neg hlt], by rw [emit_outCount, if_neg hlt]⟩

/-- The header parse leaves the output and OUT_COUNT alone (R183, R184). -/
theorem out_coreStep_of_hdr {s t : State} (hc : s.ctl = .hdr) (h : coreStep s = .next t) :
    t.out = s.out ∧ t.outCount = s.outCount := by
  rw [coreStep_hdr hc] at h
  obtain ⟨-, hv⟩ | ⟨-, -, hv⟩ | ⟨-, -, hv⟩ := headerVisit_cases s <;> rw [hv] at h <;> cases h
  · exact ⟨raise_out .malformedHeader s, raise_outCount .malformedHeader s⟩
  · exact ⟨rfl, rfl⟩

/-- A visit that emits no byte leaves the output and OUT_COUNT alone. -/
theorem out_coreStep_of_none {s t : State} (he : emittedBy s = none) (h : coreStep s = .next t) :
    t.out = s.out ∧ t.outCount = s.outCount := by
  by_cases hc : s.ctl = .hdr
  · exact out_coreStep_of_hdr hc h
  · obtain ⟨-, -, -, hout, hcount, -⟩ := stores_eq_iff.1 (stores_coreStep_of_none he hc h)
    exact ⟨hout, hcount⟩

/-- Every visit of the core writes the output in order, whatever it emits. -/
theorem writesInOrder_coreStep {s t : State} (h : coreStep s = .next t) : WritesInOrder s t := by
  cases he : emittedBy s with
  | some b => exact (writesInOrder_emit b s).of_stores_eq (stores_coreStep_of_some he h)
  | none => exact .inl (out_coreStep_of_none he h)

/-- Settles O51: START sets OUT_COUNT to 0, and a visit of the core goes through `emit` or writes no output. -/
theorem outputIsWrittenInOrder : Obligations.OutputIsWrittenInOrder := by
  refine ⟨fun s => ⟨start_outCount s, start_out s⟩, fun s s0 t hcore hstep => ?_⟩
  rw [step_of_core hcore] at hstep
  exact writesInOrder_coreStep hstep

end Sys2Proof.Machine

/-! ## The opcode map in match/mask form (R108) and the worked encodings (R115)

A table word's payload bits are the word's binary digits, so each field that the decoder takes is a remainder of a
quotient of the word. A mask test of the table compares such fields too. -/

namespace Sys2Proof

/-! ### Fields of a word's binary digits -/

/-- The payload bits of a number's low bytes are its binary digits (R12, R76). -/
theorem payloadBits_littleEndianBytes (n w : Nat) : payloadBits (littleEndianBytes n w) = bitsLsb (8 * n) w := by
  induction n generalizing w with
  | zero => rfl
  | succ n ih =>
    calc payloadBits (littleEndianBytes (n + 1) w)
        = bitsLsb 8 (w % 2 ^ 8) ++ payloadBits (littleEndianBytes n (w / 2 ^ 8)) := rfl
      _ = bitsLsb 8 w ++ bitsLsb (8 * n) (w / 2 ^ 8) := by rw [bitsLsb_mod, ih]
      _ = bitsLsb (8 * (n + 1)) w := by rw [← bitsLsb_add, Nat.mul_succ, Nat.add_comm]

/-- A word of 24 bits is read as the token that its 24 digits begin with. -/
theorem decodeTableWord_of_decode {w : Nat} (hw : w < 2 ^ 24) {i : Instr} {rest : List Bool}
    (h : decode (bitsLsb 24 w) = .ok (i, rest)) : decodeTableWord 24 w = some i := by
  have hbits : payloadBits (tableBytes 24 w) = bitsLsb 24 w := by
    rw [tableBytes, Nat.mod_eq_of_lt hw]
    exact payloadBits_littleEndianBytes 3 w
  simp only [decodeTableWord, decodeBytes, hbits, h]

/-- A field taken off a number's digits leaves the digits of the quotient (R104). -/
theorem takeField_bitsLsb (n m v : Nat) :
    takeField n (bitsLsb (n + m) v) = some (BitVec.ofNat 16 (v % 2 ^ n), bitsLsb m (v / 2 ^ n)) := by
  rw [bitsLsb_add, takeField_bits]

/-- The value of a field, cut to the field's own width. -/
theorem setWidth_fieldValue {n : Nat} (hn : n ≤ 16) (v : Nat) :
    (BitVec.ofNat 16 (v % 2 ^ n)).setWidth n = BitVec.ofNat n v := by
  rw [BitVec.setWidth_ofNat_of_le hn]
  exact BitVec.eq_of_toNat_eq (by simp)

/-- A field holds a value just when the digits it was taken from are that value's. -/
theorem fieldValue_eq_iff {n : Nat} (hn : n ≤ 16) (v c : Nat) :
    (BitVec.ofNat 16 (v % 2 ^ n)).setWidth n = BitVec.ofNat n c ↔ v % 2 ^ n = c % 2 ^ n := by
  rw [setWidth_fieldValue hn, ← BitVec.toNat_inj, BitVec.toNat_ofNat, BitVec.toNat_ofNat]

/-! ### One equation per row of the opcode map (R100 to R103) -/

/-- Flag 0: a literal. -/
theorem decode_bitsLsb_lit (m : Nat) {w : Nat} (hflag : w % 2 = 0) :
    decode (bitsLsb (1 + (8 + m)) w) = .ok (.lit (BitVec.ofNat 8 (w / 2)), bitsLsb m (w / 2 / 256)) := by
  have hf : (BitVec.ofNat 16 (w % 2 ^ 1)).setWidth 1 = (0 : BitVec 1) :=
    (fieldValue_eq_iff (by decide) w 0).2 hflag
  refine (decodeFrom_more (stage := .flag) (takeField_bitsLsb 1 _ w) (decodeField_flag_zero hf)).trans ?_
  rw [← setWidth_fieldValue (by decide : 8 ≤ 16)]
  exact decodeFrom_token (stage := .literal) (takeField_bitsLsb 8 _ _) rfl

/-- Flag 1: the raw length comes next. -/
theorem decode_bitsLsb_flag_one (m : Nat) {w : Nat} (hflag : w % 2 = 1) :
    decode (bitsLsb (1 + m) w) = decodeFrom 2 .length (bitsLsb m (w / 2)) := by
  have hf : (BitVec.ofNat 16 (w % 2 ^ 1)).setWidth 1 ≠ (0 : BitVec 1) :=
    fun h => absurd ((fieldValue_eq_iff (by decide) w 0).1 h) (by omega)
  exact decodeFrom_more (stage := .flag) (takeField_bitsLsb 1 m w) (decodeField_flag_one hf)

/-- Flag 1 and raw length 15: END. -/
theorem decode_bitsLsb_endToken (m : Nat) {w : Nat} (hflag : w % 2 = 1) (hlen : w / 2 % 16 = 15) :
    decode (bitsLsb (1 + (4 + m)) w) = .ok (.endToken, bitsLsb m (w / 2 / 16)) := by
  have hl : (BitVec.ofNat 16 (w / 2 % 2 ^ 4)).setWidth 4 = (15 : BitVec 4) :=
    (fieldValue_eq_iff (by decide) (w / 2) 15).2 hlen
  rw [decode_bitsLsb_flag_one _ hflag]
  exact decodeFrom_token (stage := .length) (takeField_bitsLsb 4 m _) (decodeField_length_sentinel hl)

/-- Flag 1 and another raw length: the offset comes next. -/
theorem decode_bitsLsb_length_raw (m : Nat) {w : Nat} (hflag : w % 2 = 1) (hlen : w / 2 % 16 ≠ 15) :
    decode (bitsLsb (1 + (4 + m)) w) = decodeFrom 1 (.offset (BitVec.ofNat 4 (w / 2))) (bitsLsb m (w / 32)) := by
  have hl : (BitVec.ofNat 16 (w / 2 % 2 ^ 4)).setWidth 4 ≠ (15 : BitVec 4) :=
    fun h => hlen ((fieldValue_eq_iff (by decide) (w / 2) 15).1 h)
  rw [decode_bitsLsb_flag_one _ hflag, ← setWidth_fieldValue (by decide : 4 ≤ 16),
    show w / 32 = w / 2 / 2 ^ 4 from (Nat.div_div_eq_div_mul w 2 16).symm]
  exact decodeFrom_more (stage := .length) (takeField_bitsLsb 4 m _) (decodeField_length_raw hl)

/-- Offset 0: the illegal MATCH (R109). -/
theorem decode_bitsLsb_matchZeroOffset (m : Nat) {w : Nat} (hflag : w % 2 = 1) (hlen : w / 2 % 16 ≠ 15)
    (hoff : w / 32 % 8192 = 0) :
    decode (bitsLsb (1 + (4 + (13 + m))) w) =
      .ok (.matchZeroOffset (BitVec.ofNat 4 (w / 2)), bitsLsb m (w / 32 / 8192)) := by
  have ho : (BitVec.ofNat 16 (w / 32 % 2 ^ 13)).setWidth 13 = (0 : BitVec 13) :=
    (fieldValue_eq_iff (by decide) (w / 32) 0).2 hoff
  rw [decode_bitsLsb_length_raw _ hflag hlen]
  exact decodeFrom_token (stage := .offset _) (takeField_bitsLsb 13 m _) (decodeField_offset_zero _ ho)

/-- Another offset: MATCH. -/
theorem decode_bitsLsb_matchRef (m : Nat) {w : Nat} (hflag : w % 2 = 1) (hlen : w / 2 % 16 ≠ 15)
    (hoff : w / 32 % 8192 ≠ 0) :
    decode (bitsLsb (1 + (4 + (13 + m))) w) =
      .ok (.matchRef (BitVec.ofNat 4 (w / 2)) (BitVec.ofNat 13 (w / 32)), bitsLsb m (w / 32 / 8192)) := by
  have ho : (BitVec.ofNat 16 (w / 32 % 2 ^ 13)).setWidth 13 ≠ (0 : BitVec 13) :=
    fun h => hoff ((fieldValue_eq_iff (by decide) (w / 32) 0).1 h)
  rw [decode_bitsLsb_length_raw _ hflag hlen, ← setWidth_fieldValue (by decide : 13 ≤ 16) (w / 32)]
  exact decodeFrom_token (stage := .offset _) (takeField_bitsLsb 13 m _) (decodeField_offset_ne _ ho)

/-! ### The mask tests of R108 as tests of fields -/

/-- The flag's mask. -/
theorem and_flagMask_iff (w : Nat) : w &&& 0x00001 = 0x00001 ↔ w % 2 = 1 := by
  rw [Nat.and_one_is_mod]

/-- END's mask covers the flag and the raw length. -/
theorem and_endMask_iff (w : Nat) : w &&& 0x1F = 0x1F ↔ w % 2 = 1 ∧ w / 2 % 16 = 15 := by
  rw [show w &&& 0x1F = w % 32 from Nat.and_two_pow_sub_one_eq_mod w 5]
  omega

/-- The zero-offset mask covers the flag, below, and the offset, from bit 5 on. -/
theorem and_zeroOffsetMask_iff (w : Nat) : w &&& 0x3FFE1 = 0x00001 ↔ w % 2 = 1 ∧ w / 32 % 8192 = 0 := by
  have hlow : (w &&& 0x3FFE1) % 32 = w % 2 := by
    calc (w &&& 0x3FFE1) % 2 ^ 5 = w % 2 ^ 5 &&& 1 := Nat.and_mod_two_pow
      _ = w % 32 % 2 := Nat.and_one_is_mod _
      _ = w % 2 := Nat.mod_mod_of_dvd w (by decide)
  have hhigh : (w &&& 0x3FFE1) / 32 = w / 32 % 8192 := by
    calc (w &&& 0x3FFE1) / 2 ^ 5 = w / 2 ^ 5 &&& 2 ^ 13 - 1 := Nat.and_div_two_pow
      _ = w / 32 % 8192 := Nat.and_two_pow_sub_one_eq_mod _ 13
  omega

/-- Settles O3: each mask test is a test of the fields, and under those tests the walk over the word's digits gives
the row's token. -/
theorem matchMaskFormOfTheOpcodeMap : Obligations.MatchMaskFormOfTheOpcodeMap := by
  intro w hw
  have hw : w < 2 ^ 24 := hw.trans (by decide)
  simp only [and_endMask_iff, and_zeroOffsetMask_iff, and_flagMask_iff]
  by_cases hflag : w % 2 = 1
  · by_cases hlen : w / 2 % 16 = 15
    · rw [if_pos ⟨hflag, hlen⟩]
      exact decodeTableWord_of_decode hw (decode_bitsLsb_endToken 19 hflag hlen)
    rw [if_neg fun h => hlen h.2]
    by_cases hoff : w / 32 % 8192 = 0
    · rw [if_pos ⟨hflag, hoff⟩]
      exact decodeTableWord_of_decode hw (decode_bitsLsb_matchZeroOffset 6 hflag hlen hoff)
    · rw [if_neg fun h => hoff h.2, if_pos hflag]
      exact decodeTableWord_of_decode hw (decode_bitsLsb_matchRef 6 hflag hlen hoff)
  · rw [if_neg fun h => hflag h.1, if_neg fun h => hflag h.1, if_neg hflag]
    exact decodeTableWord_of_decode hw (decode_bitsLsb_lit 15 (by omega))

/-- Settles O5: the words are closed, so the decoder and the packer run on each. -/
theorem workedEncodingsDecode : Obligations.WorkedEncodingsDecode :=
  ⟨by decide, by decide, by decide, by decide, by decide, by decide, by decide⟩

end Sys2Proof

/-! ## The refills of a read (R138) and the width guard (R131)

A read's refills are counted one at a time. `Refilled r s t` says what `r` refills leave, one refill more in front adds
what `refill_fields` gives, and the loop of R133 stops after just as many as the width asks for. -/

namespace Sys2Proof.Machine

/-! ### The number of refills -/

/-- The refills that a read of width `n` makes from CNT = `c` (R138). -/
def refillsNeeded (n c : Nat) : Nat := if n ≤ c then 0 else (n - c + 7) / 8

theorem refillsNeeded_of_le {n c : Nat} (h : n ≤ c) : refillsNeeded n c = 0 := if_pos h

theorem refillsNeeded_of_lt {n c : Nat} (h : c < n) : refillsNeeded n c = refillsNeeded n (c + 8) + 1 := by
  unfold refillsNeeded
  rw [if_neg (by omega)]
  split <;> omega

/-- From a field boundary two refills are enough, and they load at most 7 bits more than the read takes (R138). -/
theorem refillsNeeded_bounds {n c : Nat} (hn : n ≤ 16) (hc : c ≤ 7) :
    refillsNeeded n c ≤ 2 ∧ c + 8 * refillsNeeded n c - n ≤ 7 := by
  unfold refillsNeeded
  split <;> omega

/-! ### What a number of refills leaves -/

/-- The input bytes that are still to be loaded. -/
def inputLeft (s : State) : Nat := s.inLen.toNat - s.cursor.toNat

theorem inputLeft_eq_zero {s : State} (h : ¬ s.cursor.toNat < s.inLen.toNat) : inputLeft s = 0 :=
  Nat.sub_eq_zero_of_le (not_lt.1 h)

/-- A refill takes one input byte, unless none is left. -/
theorem inputLeft_refill {s : State} (hcnt : s.cnt.toNat ≤ 15) : inputLeft (refill s) = inputLeft s - 1 := by
  obtain ⟨-, hinput⟩ := refill_fields hcnt
  have hlen : (refill s).inLen = s.inLen := by rw [refill_frame s]
  unfold inputLeft
  rw [hlen]
  split at hinput <;> obtain ⟨hcursor, -⟩ := hinput <;> rw [hcursor]
  · omega
  · omega

/-- `t` is what `r` refills make of `s`: the first ones find an input byte each, as long as there is one (R132), and
UFLOW and UFLOW_COUNT record the others (R135). -/
structure Refilled (r : Nat) (s t : State) : Prop where
  cnt : t.cnt.toNat = s.cnt.toNat + 8 * r
  cursor : t.cursor.toNat = s.cursor.toNat + min r (inputLeft s)
  uflowCount : t.uflowCount.toNat = min (s.uflowCount.toNat + (r - min r (inputLeft s))) 0xFFFFFFFF
  uflow : t.uflow = (s.uflow || decide (min r (inputLeft s) < r))

theorem Refilled.zero (s : State) : Refilled 0 s s where
  cnt := rfl
  cursor := by simp
  uflowCount := by have := s.uflowCount.isLt; omega
  uflow := by simp

/-- Counting one more and saturating at `m`, and then `k` more, is counting `k + 1` more (R46). -/
theorem min_min_succ_add (a k m : Nat) : min (min (a + 1) m + k) m = min (a + (k + 1)) m := by omega

/-- One refill more in front: it takes an input byte if one is left, and is an underflow if not. -/
theorem Refilled.refill_first {r : Nat} {s t : State} (hcnt : s.cnt.toNat ≤ 15)
    (h : Refilled r (refill s) t) : Refilled (r + 1) s t := by
  obtain ⟨tcnt, tcursor, tcount, tuflow⟩ := h
  obtain ⟨rcnt, rinput⟩ := refill_fields hcnt
  rw [inputLeft_refill hcnt] at tcursor tcount tuflow
  by_cases hlt : s.cursor.toNat < s.inLen.toNat
  · rw [if_pos hlt] at rinput
    obtain ⟨rcursor, ruflow, rcount⟩ := rinput
    have hleft : 0 < inputLeft s := Nat.sub_pos_of_lt hlt
    have hreal : min (r + 1) (inputLeft s) = min r (inputLeft s - 1) + 1 := by omega
    exact {
      cnt := by omega
      cursor := by omega
      uflowCount := by rw [tcount, rcount, hreal, Nat.add_sub_add_right]
      uflow := by rw [tuflow, ruflow, hreal]; simp only [Nat.add_lt_add_iff_right] }
  · rw [if_neg hlt] at rinput
    obtain ⟨rcursor, ruflow, rcount⟩ := rinput
    have hleft : inputLeft s = 0 := inputLeft_eq_zero hlt
    rw [hleft, Nat.zero_sub, Nat.min_zero] at tcursor tcount
    exact {
      cnt := by omega
      cursor := by rw [tcursor, rcursor, hleft, Nat.min_zero]
      uflowCount := by
        rw [tcount, rcount, hleft, Nat.min_zero]
        exact min_min_succ_add _ _ _
      uflow := by simp [tuflow, ruflow, hleft] }

/-- The loop of R133 makes just the refills that the width asks for, if its fuel allows them. -/
theorem refilled_refillUntil {n : BitVec 5} (hn : n.toNat ≤ 16) (fuel : Nat) (s : State)
    (hfuel : n.toNat ≤ s.cnt.toNat + 8 * fuel) :
    Refilled (refillsNeeded n.toNat s.cnt.toNat) s (refillUntil fuel n s) := by
  induction fuel generalizing s with
  | zero =>
    rw [refillsNeeded_of_le (by omega)]
    exact .zero s
  | succ fuel ih =>
    unfold refillUntil
    split
    · next hlt =>
      rw [BitVec.lt_def] at hlt
      have hcnt : s.cnt.toNat ≤ 15 := by omega
      have hrefill : (refill s).cnt.toNat = s.cnt.toNat + 8 := (refill_fields hcnt).1
      rw [refillsNeeded_of_lt hlt, ← hrefill]
      exact (ih (refill s) (by omega)).refill_first hcnt
    · next hge =>
      rw [BitVec.lt_def] at hge
      rw [refillsNeeded_of_le (by omega)]
      exact .zero s

/-- Settles O8: an extraction takes `n` bits off the CNT that the counted refills leave, and keeps their CURSOR and
reports. -/
theorem readMakesTheRefillsOfItsWidth : Obligations.ReadMakesTheRefillsOfItsWidth := by
  intro n s hn
  obtain ⟨hcnt, hcursor, hcount, huflow⟩ := refilled_refillUntil hn 2 s (by omega)
  have hread : (afterRead n s).cnt.toNat =
      s.cnt.toNat + 8 * refillsNeeded n.toNat s.cnt.toNat - n.toNat := by
    rw [afterRead, dropBits_cnt_toNat (refillUntil_spec hn s).1, hcnt]
  refine ⟨_, _, readBits_of_le hn s, hread, hcursor, hcount, huflow, fun hc => ?_⟩
  obtain ⟨htwo, hseven⟩ := refillsNeeded_bounds hn hc
  exact ⟨htwo, hread.trans_le hseven⟩

/-- Settles O6: the guard answers with the state it was given, and the violation is raised in that state. -/
theorem wideReadIsAViolation : Obligations.WideReadIsAViolation := by
  intro n s hn
  rw [readBits_of_gt hn]
  exact ⟨rfl, fun _ => rfl⟩

end Sys2Proof.Machine

/-! ## Emission (R150), the copy of a match (R156, R159, R161) and the visits that read a token's fields (R151 to R155)

Byte i of a copy is the byte that was under the source when it was written. Either no byte of the copy has reached that
cell yet, or it holds byte i - offset of the same copy. The visits that read a field are those of Laws/Step.lean with
the test of the field said about its value. -/

namespace Sys2Proof.Machine

/-! ### Emission within the budget and past it -/

/-- Within the budget `emit` writes its byte at OUT_COUNT and counts it (R150). -/
theorem emit_within_budget (b : Byte) {s : State} (h : s.outCount.toNat < s.declSize.toNat) :
    (∀ i, outByte (emit b s) i = if i = s.outCount.toNat then b else outByte s i) ∧
    (emit b s).outCount.toNat = s.outCount.toNat + 1 ∧ (emit b s).trunc = s.trunc := by
  refine ⟨fun i => ?_, ?_, ?_⟩
  · simp only [outByte_emit, h, true_and]
  · rw [emit_outCount_toNat, if_pos h]
  · simp [emit_trunc, BitVec.lt_def, h]

/-- Past the budget `emit` drops its byte and sets TRUNC (R150). -/
theorem emit_past_budget (b : Byte) {s : State} (h : s.declSize.toNat ≤ s.outCount.toNat) :
    (∀ i, outByte (emit b s) i = outByte s i) ∧ (emit b s).outCount = s.outCount ∧ (emit b s).trunc = true := by
  have hn : ¬ s.outCount.toNat < s.declSize.toNat := Nat.not_lt.2 h
  refine ⟨fun i => ?_, ?_, ?_⟩
  · rw [outByte_emit, if_neg fun k => hn k.1]
  · rw [emit_outCount, if_neg fun k => hn (BitVec.lt_def.1 k)]
  · simp [emit_trunc, BitVec.lt_def, hn]

/-- Settles O12: the window half, the two sides of the budget, and the frame of `emit`. -/
theorem emitWritesOneByte : Obligations.EmitWritesOneByte := fun b s =>
  ⟨winRead_emit b s, emit_wptr_toNat b s, emit_fill_toNat b s, emit_within_budget b, emit_past_budget b,
    emit_frame b s⟩

/-! ### One copy visit -/

/-- What a COPY visit may change (R156). -/
theorem copyVisit_frame (s : State) : copyVisit s = { s with
    win := (copyVisit s).win, wptr := (copyVisit s).wptr, fill := (copyVisit s).fill, out := (copyVisit s).out
    outCount := (copyVisit s).outCount, trunc := (copyVisit s).trunc
    src := (copyVisit s).src, rem := (copyVisit s).rem, ctl := (copyVisit s).ctl } := by
  rw [copyVisit_eq]
  exact congrArg (fun u : State => { u with
    src := s.src + 1, rem := s.rem - 1, ctl := if s.rem = 1 then .tok else s.ctl }) (emit_frame _ s)

/-- Settles O19: a COPY visit is an emission of WIN[SRC] that moves the copy registers on. -/
theorem copyVisitCopiesOneByte : Obligations.CopyVisitCopiesOneByte := by
  intro s s0 hcore hc
  refine ⟨copyVisit s0, by rw [step_of_core hcore, coreStep_copy hc], ?_⟩
  have hframe := copyVisit_frame s0
  rw [copyVisit_eq, hc] at hframe ⊢
  exact ⟨winRead_emit _ s0, emit_wptr_toNat _ s0, BitVec.toNat_add _ _, rfl, rfl, emit_fill_toNat _ s0,
    emit_within_budget _, emit_past_budget _, hframe⟩

/-! ### The source trails the write cursor (R161) -/

/-- `u` has `m` bytes of a copy to come, with the write cursor `off` cells ahead of the source; no host action is to
come. -/
structure Copying (off : BitVec 13) (m : Nat) (u : State) : Prop where
  quiet : Quiet u
  rem : u.rem.toNat = m
  ctl : m ≠ 0 → u.ctl = .copy
  lead : u.wptr - u.src = off

/-- MATCH starts a copy of its length (R155). -/
theorem copying_of_exec_matchRef {raw : BitVec 4} {off : BitVec 13} {s t : State} (hoff : off ≠ 0) (q : Quiet s)
    (h : exec (.matchRef raw off) s = .next t) : Copying off (raw.toNat + 3) t := by
  rw [exec_matchRef_of_ne hoff] at h
  cases h
  exact {
    quiet := (afterRead_inbox 13 s).trans q
    rem := matchLength_toNat raw
    ctl := fun _ => rfl
    lead := by rw [afterRead_wptr]; exact sub_sub_cancel s.wptr off }

/-- A copy step moves the write cursor and the source alike. -/
theorem Copying.step {off : BitVec 13} {m : Nat} {u : State} (h : Copying off (m + 1) u) :
    ∃ v, Machine.step u = .next v ∧ Copying off m v := by
  have hc : u.ctl = .copy := h.ctl (Nat.succ_ne_zero m)
  have hrem := h.rem
  have hlast : m ≠ 0 → u.rem ≠ 1 := fun hm h1 => by bv_omega
  refine ⟨copyVisit u, by rw [step_of_quiet h.quiet, coreStep_copy hc], ?_⟩
  rw [copyVisit_eq]
  exact {
    quiet := (emit_inbox _ u).trans h.quiet
    rem := by bv_omega
    ctl := fun hm => (if_neg (hlast hm)).trans hc
    lead := by rw [emit_wptr, ← h.lead]; exact add_sub_add_right_eq_sub u.wptr u.src 1 }

/-- The copy steps of a match, as many as there are bytes to come. -/
theorem Copying.runs {off : BitVec 13} (k m : Nat) {u : State} (h : Copying off (m + k) u) :
    ∃ v, Machine.runs k u = .next v ∧ Copying off m v := by
  induction k generalizing u with
  | zero => exact ⟨u, runs_zero u, h⟩
  | succ k ih =>
    obtain ⟨v, hstep, hv⟩ := h.step
    rw [runs_succ_of_next hstep]
    exact ih hv

/-- The operands of a well-formed MATCH have an offset of 1 or more (R106, R109). -/
theorem offset_ne_zero_of_wellFormed {raw : BitVec 4} {off : BitVec 13} (h : WellFormed (.matchRef raw off) = true) :
    off ≠ 0 := by
  simp only [WellFormed, Bool.and_eq_true, bne_iff_ne] at h
  exact h.2

/-- Settles O23: MATCH puts the source `offset` cells behind the write cursor, and a copy step moves both alike. -/
theorem sourceTrailsByTheOffset : Obligations.SourceTrailsByTheOffset := by
  intro raw off s t k hwf q hexec hk
  have hoff := offset_ne_zero_of_wellFormed hwf
  have hstart := copying_of_exec_matchRef hoff q hexec
  rw [← Nat.sub_add_cancel hk] at hstart
  obtain ⟨u, hruns, hu⟩ := hstart.runs k
  refine ⟨u, hruns, ?_, fun heq => ?_⟩
  · rw [← hu.lead]
    exact (matchSource_toNat u.wptr u.src).symm
  · exact hoff (by rw [← hu.lead, heq]; exact sub_self u.wptr)

/-! ### What a copy leaves in the window (R159) -/

/-- The last byte of a copy is read after all the others are written. -/
theorem copyBytes_succ_last (n : Nat) (p : WinIx) (s : State) : copyBytes (n + 1) p s =
    emit (winRead (copyBytes n p s) (p + BitVec.ofNat 13 n)) (copyBytes n p s) := by
  induction n generalizing p s with
  | zero => simp [copyBytes]
  | succ n ih =>
    have hp : p + 1 + BitVec.ofNat 13 n = p + BitVec.ofNat 13 (n + 1) := by bv_omega
    rw [copyBytes, ih, hp, ← copyBytes]

/-- A copy advances the write cursor by its length. -/
theorem copyBytes_wptr (n : Nat) (p : WinIx) (s : State) :
    (copyBytes n p s).wptr = s.wptr + BitVec.ofNat 13 n := by
  induction n with
  | zero => simp [copyBytes]
  | succ n ih => rw [copyBytes_succ_last, emit_wptr, ih]; bv_omega

/-- A copy changes no cell but those it writes. -/
theorem winRead_copyBytes_of_ne (n : Nat) (p : WinIx) (s : State) {c : WinIx}
    (h : ∀ i, i < n → c ≠ s.wptr + BitVec.ofNat 13 i) : winRead (copyBytes n p s) c = winRead s c := by
  induction n with
  | zero => rfl
  | succ n ih =>
    rw [copyBytes_succ_last, winRead_emit, copyBytes_wptr, if_neg (h n (Nat.lt_succ_self n))]
    exact ih fun i hi => h i (by omega)

/-- Up to 8192 bytes a copy writes no cell twice, so each holds the byte that was under the source when it was
written. -/
theorem winRead_copyBytes (n : Nat) (p : WinIx) (s : State) (hn : n ≤ 8192) {i : Nat} (hi : i < n) :
    winRead (copyBytes n p s) (s.wptr + BitVec.ofNat 13 i) =
      winRead (copyBytes i p s) (p + BitVec.ofNat 13 i) := by
  induction n with
  | zero => omega
  | succ n ih =>
    rw [copyBytes_succ_last, winRead_emit, copyBytes_wptr]
    rcases Nat.lt_succ_iff_lt_or_eq.1 hi with hlt | rfl
    · have hne : s.wptr + BitVec.ofNat 13 i ≠ s.wptr + BitVec.ofNat 13 n := by bv_omega
      rw [if_neg hne, ih (by omega) hlt]
    · rw [if_pos rfl]

/-- The block at the source repeats over the copy: byte i is byte (i mod off) of it (R159). -/
theorem winRead_copyBytes_matchSource {off : BitVec 13} (hoff : off ≠ 0) (s : State) (n i : Nat) (hn : n ≤ 8192)
    (hi : i < n) :
    winRead (copyBytes n (s.wptr - off) s) (s.wptr + BitVec.ofNat 13 i) =
      winRead s (s.wptr - off + BitVec.ofNat 13 (i % off.toNat)) := by
  have hpos : 0 < off.toNat := by bv_omega
  induction i using Nat.strong_induction_on generalizing n with
  | _ i ih =>
    rw [winRead_copyBytes n _ s hn hi]
    by_cases hlt : i < off.toNat
    · rw [Nat.mod_eq_of_lt hlt]
      exact winRead_copyBytes_of_ne i _ s fun j hj => by bv_omega
    · have hcell : s.wptr - off + BitVec.ofNat 13 i = s.wptr + BitVec.ofNat 13 (i - off.toNat) := by bv_omega
      rw [hcell, ih (i - off.toNat) (by omega) i (by omega) (by omega), ← Nat.mod_eq_sub_mod (by omega)]

/-- The copy visits of a MATCH make its copy as one function (R157). -/
theorem runs_of_exec_matchRef {raw : BitVec 4} {off : BitVec 13} {s t : State} (hoff : off ≠ 0) (q : Quiet s)
    (h : exec (.matchRef raw off) s = .next t) :
    runs (raw.toNat + 3) t = .next { copyBytes (raw.toNat + 3) (t.wptr - off) t with
      src := t.wptr - off + BitVec.ofNat 13 (raw.toNat + 3), rem := 0, ctl := .tok } := by
  have ht := copying_of_exec_matchRef hoff q h
  have hsrc : t.src = t.wptr - off := by rw [← ht.lead]; exact (sub_sub_cancel t.wptr t.src).symm
  rw [← hsrc]
  exact runs_copy (raw.toNat + 2) t ht.quiet (ht.ctl (by omega)) ht.rem

/-- A MATCH's own visit writes no window cell and leaves WPTR (R155). -/
theorem window_of_exec_matchRef {raw : BitVec 4} {off : BitVec 13} {s t : State} (hoff : off ≠ 0)
    (h : exec (.matchRef raw off) s = .next t) : t.wptr = s.wptr ∧ ∀ p, winRead t p = winRead s p := by
  rw [exec_matchRef_of_ne hoff] at h
  cases h
  exact ⟨afterRead_wptr 13 s, winRead_afterRead 13 s⟩

/-- Settles O21: the copy visits make the copy of R157, whose bytes repeat the block at the source. -/
theorem overlappingMatchRepeatsItsBlock : Obligations.OverlappingMatchRepeatsItsBlock := by
  intro raw off s hwf q
  have hoff := offset_ne_zero_of_wellFormed hwf
  obtain ⟨t, hexec⟩ := exec_next (.matchRef raw off) s
  obtain ⟨hwptr, hwin⟩ := window_of_exec_matchRef hoff hexec
  refine ⟨t, _, hexec, runs_of_exec_matchRef hoff q hexec, fun i hi => ?_⟩
  rw [← hwptr, ← hwin]
  exact winRead_copyBytes_matchSource hoff t _ i (by omega) hi

/-! ### The visits that read a field -/

/-- A field read with its own width loses nothing when it is cut to that width (R134). -/
theorem setWidth_readValue_toNat {n : BitVec 5} {m : Nat} (hm : n.toNat = m) (s : State) :
    ((readValue n s).setWidth m).toNat = (readValue n s).toNat := by
  subst hm
  rw [BitVec.toNat_setWidth, Nat.mod_eq_of_lt (readValue_lt n s)]

/-- The test of a field is a test of the value read. -/
theorem setWidth_readValue_eq_iff {n : BitVec 5} {m : Nat} (hm : n.toNat = m) (s : State) (c : BitVec m) :
    (readValue n s).setWidth m = c ↔ (readValue n s).toNat = c.toNat := by
  rw [← BitVec.toNat_inj, setWidth_readValue_toNat hm]

/-- Settles O27: the two answers of the TOK visit, its flag test said about the bit read. -/
theorem tokenBoundaryTestsSizeThenFlag : Obligations.TokenBoundaryTestsSizeThenFlag := by
  intro s s0 hcore hc
  have hflag : (readValue 1 s0).setWidth 1 = (0 : BitVec 1) ↔ (readValue 1 s0).toNat = 0 :=
    setWidth_readValue_eq_iff (n := 1) rfl s0 0
  rw [step_of_core hcore]
  refine ⟨fun hle => coreStep_tok_of_le hc (BitVec.le_def.2 hle), fun hlt => ?_⟩
  refine ⟨_, _, readBits_flag s0, ?_⟩
  rw [coreStep_tok hc fun hle => Nat.not_le.2 hlt (BitVec.le_def.1 hle)]
  simp only [hflag]

/-- Settles O28: the two answers of the MLEN visit, its sentinel test said about the value read. -/
theorem lengthVisitTestsTheSentinel : Obligations.LengthVisitTestsTheSentinel := by
  intro s s0 hcore hc
  have hsentinel : (readValue 4 s0).setWidth 4 = (15 : BitVec 4) ↔ (readValue 4 s0).toNat = 15 :=
    setWidth_readValue_eq_iff (n := 4) rfl s0 15
  rw [step_of_core hcore, coreStep_mlen hc]
  refine ⟨_, _, readBits_length s0, fun h => ?_, fun h => ?_⟩
  · rw [if_pos (hsentinel.2 h)]
    rfl
  · rw [if_neg fun k => h (hsentinel.1 k)]
    refine ⟨_, rfl, ?_, rfl, rfl⟩
    exact (matchLength_toNat _).trans (congrArg (· + 3) (setWidth_readValue_toNat (n := 4) rfl s0))

/-- Where REM is a length, the MOFF visit keeps it (log 10). -/
theorem coreStep_moff_of_rem {s : State} (hc : s.ctl = .moff) (h3 : 3 ≤ s.rem.toNat) (h17 : s.rem.toNat ≤ 17) :
    coreStep s = .next (applyOffset ((readValue 13 s).setWidth 13) (afterRead 13 s)) := by
  rw [coreStep_moff hc, matchLength_rawLengthOf h3 (by omega), ← afterRead_rem 13 s]

/-- Settles O29: the LIT visit, and the two answers of the MOFF visit, its zero test said about the value read. -/
theorem lastFieldVisits : Obligations.LastFieldVisits := by
  refine ⟨fun s s0 hcore hc => ?_, fun s s0 hcore hc h3 h17 => ?_⟩
  · exact ⟨_, _, readBits_literal s0, by rw [step_of_core hcore, coreStep_lit hc]⟩
  · have hzero : (readValue 13 s0).setWidth 13 = (0 : BitVec 13) ↔ (readValue 13 s0).toNat = 0 :=
      setWidth_readValue_eq_iff (n := 13) rfl s0 0
    have hoff := setWidth_readValue_toNat (n := 13) (m := 13) rfl s0
    rw [step_of_core hcore, coreStep_moff_of_rem hc h3 h17, applyOffset]
    refine ⟨_, _, readBits_offset s0, fun h => ?_, fun h => ?_⟩
    · rw [if_pos (hzero.2 h)]
      rfl
    · rw [if_neg fun k => h (hzero.1 k)]
      refine ⟨_, rfl, ?_, ?_, rfl, rfl⟩
      · rw [matchSource_toNat, hoff, afterRead_wptr]
      · simp only [beyondHistory_eq, hoff, afterRead_prehist, afterRead_fill]

end Sys2Proof.Machine

/-! ## Run control: the header parse (R183, R184, R195), the end of a run (R190) and the tag no run reads (R185)

A run with DECL_SIZE = 0 is the header parse followed by the first TOK step, which finds the size reached. For R185 the
input memory is exchanged for one with the same bytes from index 4 on. The header parse reads indices 4 to 7, and the
reader stands at CURSOR ≥ 8 by the run invariant, so both make the same reads from either memory. -/

namespace Sys2Proof.Machine

/-! ### The header parse -/

/-- A stream shorter than the header is malformed (R183). -/
theorem coreStep_hdr_of_short {s : State} (hc : s.ctl = .hdr) (hlen : s.inLen.toNat < 8) :
    coreStep s = .next (raise .malformedHeader s) := by
  obtain ⟨-, hv⟩ | ⟨hge, -⟩ | ⟨hge, -⟩ := headerVisit_cases s
  · rw [coreStep_hdr hc, hv]
  · omega
  · omega

/-- The size that bytes 4 to 7 of the input declare (R184). -/
def headerSize (s : State) : Word := bigEndianWord (inByte s 4) (inByte s 5) (inByte s 6) (inByte s 7)

/-- The state at the first token boundary, with this size (R184). -/
def atFirstToken (size : Word) (s : State) : State := { s with declSize := size, cursor := 8, ctl := .tok }

/-- From an input the host has left alone, the header parse takes the size of bytes 4 to 7 (R184, R197). -/
theorem coreStep_hdr_of_clean {s : State} (hc : s.ctl = .hdr) (hlen : 8 ≤ s.inLen.toNat) (hclean : s.inDirty = [])
    (hcap : (headerSize s).toNat ≤ s.outCapacity) : coreStep s = .next (atFirstToken (headerSize s) s) := by
  have hread : readHeader s = (headerSize s, s) := readHeader_of_clean hclean
  have hv := headerVisit_cases s
  rw [hread] at hv
  obtain ⟨hlt, -⟩ | ⟨-, hbig, -⟩ | ⟨-, -, hv⟩ := hv
  · omega
  · exact absurd hcap (Nat.not_le.2 hbig)
  · rw [coreStep_hdr hc, hv]
    rfl

/-- Settles O30: the big-endian word of bytes 4 to 7 is the size that the words of R184 compute. -/
theorem headerVisitParsesTheSize : Obligations.HeaderVisitParsesTheSize := by
  intro s s0 hcore hc
  rw [step_of_core hcore]
  refine ⟨coreStep_hdr_of_short hc, fun hlen hclean => ?_⟩
  rw [← bigEndianWord_toNat]
  intro size hcap
  have hword : BitVec.ofNat 32 size = headerSize s0 := by
    rw [show size = (headerSize s0).toNat from rfl, BitVec.ofNat_toNat, BitVec.setWidth_eq]
  rw [hword]
  exact ⟨coreStep_hdr_of_clean hc hlen hclean hcap, rfl⟩

/-- Settles O31: the header parse reads size 0, and the first TOK step finds no byte left to emit. -/
theorem emptyRunReadsNoPayload : Obligations.EmptyRunReadsNoPayload := by
  intro s hq hc _ hlen hclean h4 h5 h6 h7
  have hsize : headerSize s = 0 := by
    rw [headerSize, h4, h5, h6, h7]
    rfl
  have hheader := coreStep_hdr_of_clean hc hlen hclean (by simp [hsize])
  rw [hsize] at hheader
  have hq' : Quiet (atFirstToken 0 s) := hq
  have hfull : (atFirstToken 0 s).declSize ≤ (atFirstToken 0 s).outCount := BitVec.le_def.2 (Nat.zero_le _)
  have hfinish := coreStep_tok_of_le (s := atFirstToken 0 s) rfl hfull
  rw [runs_succ_of_next ((step_of_quiet hq).trans hheader), runs_succ_of_next ((step_of_quiet hq').trans hfinish)]
  rfl

/-! ### The end of a run -/

/-- A run that has ended is IDLE (R191, R214). -/
theorem RunInv.idle_of_done {s : State} (h : RunInv s) (hdone : s.done = true) : s.ctl = .idle := by
  by_contra hbusy
  obtain ⟨hnot, -⟩ := h.running hbusy
  exact Bool.false_ne_true (hnot.symm.trans hdone)

/-- At the end of a run the result is valid exactly if no fatal error ended it (R193). -/
theorem RunInv.resultValid_iff_of_done {s : State} (h : RunInv s) (hdone : s.done = true) :
    s.resultValid = true ↔ s.err = none := by
  rw [← Option.not_isSome_iff_eq_none]
  refine ⟨fun hvalid herr => ?_, fun hnone => (h.done_reports hdone).resolve_right hnone⟩
  exact Bool.false_ne_true ((h.err_no_result herr).symm.trans hvalid)

/-- A valid result is short of DECL_SIZE exactly if END was decoded (R190). -/
theorem RunInv.short_iff_sentinel {s : State} (h : RunInv s) (hvalid : s.resultValid = true) :
    s.outCount.toNat < s.declSize.toNat ↔ s.sentinel = true := by
  refine ⟨fun hshort => (h.result_complete hvalid).resolve_right fun hfull => ?_, h.sentinel_short⟩
  rw [hfull] at hshort
  exact Nat.lt_irrefl _ hshort

/-- Settles O53: each report is read off the run invariant. -/
theorem endOfRunReports : Obligations.EndOfRunReports := by
  intro s h hdone
  refine ⟨h.idle_of_done hdone, h.resultValid_iff_of_done hdone, h.short_iff_sentinel, ?_, ?_⟩
  · exact fun hvalid hnot => (h.result_complete hvalid).resolve_left (by simp [hnot])
  · rintro ⟨htrunc, hsentinel⟩
    have hshort := h.sentinel_short hsentinel
    rw [h.trunc_full htrunc] at hshort
    exact Nat.lt_irrefl _ hshort

/-! ### Another input memory -/

/-- The state with another input memory. -/
def withInput (m : Memory) (s : State) : State := { s with inp := m }

/-- The two input memories hold the same bytes from index 4 on: they may differ in the tag (R71, R185). -/
def SameBeyondTag (m n : Memory) : Prop := ∀ i, 4 ≤ i → Memory.read? m i = Memory.read? n i

section
variable {m : Memory} {s : State}

/-- An input read beyond the tag gives the same byte, or the same draw, from both memories. -/
theorem inRead_withInput (h : SameBeyondTag m s.inp) {i : Word} (hi : 4 ≤ i.toNat) :
    inRead i (withInput m s) = ((inRead i s).1, withInput m (inRead i s).2) := by
  have hbyte : inByte (withInput m s) i.toNat = inByte s i.toNat := congrArg (Option.getD · _) (h _ hi)
  unfold inRead
  rw [hbyte, show (withInput m s).inDirty = s.inDirty from rfl]
  split <;> rfl

/-- The size is read at indices 4 to 7 (R184). -/
theorem readHeader_withInput (h : SameBeyondTag m s.inp) :
    readHeader (withInput m s) = ((readHeader s).1, withInput m (readHeader s).2) := by
  have hkeep : ∀ {u : State} (i : Word), SameBeyondTag m u.inp → SameBeyondTag m (inRead i u).2.inp := by
    intro u i hu
    rwa [inRead_frame i u]
  have h5 := hkeep 4 h
  have h6 := hkeep 5 h5
  have h7 := hkeep 6 h6
  simp only [readHeader, inRead_withInput h (i := 4) (by decide), inRead_withInput h5 (i := 5) (by decide),
    inRead_withInput h6 (i := 6) (by decide), inRead_withInput h7 (i := 7) (by decide)]

theorem headerVisit_withInput (h : SameBeyondTag m s.inp) :
    headerVisit (withInput m s) = (headerVisit s).map (withInput m) := by
  simp only [headerVisit, readHeader_withInput h]
  rw [show (withInput m s).inLen = s.inLen from rfl]
  split
  · rfl
  · rw [show (withInput m s).outCapacity = s.outCapacity from rfl]
    split <;> rfl

/-- A reader past the header has the same bytes ahead in both memories. -/
theorem sameReader_withInput (h : SameBeyondTag m s.inp) (hcur : 8 ≤ s.cursor.toNat) :
    SameReader s (withInput m s) where
  acc := rfl
  cnt := rfl
  cursor := rfl
  inLen := rfl
  inDirty := rfl
  draws := rfl
  bytes i hi := congrArg (Option.getD · _) (h i (by omega))

/-- Where the readers are the same, a read leaves the same state but for the input memory. -/
theorem afterRead_withInput (h : SameReader s (withInput m s)) (n : BitVec 5) :
    afterRead n (withInput m s) = withInput m (afterRead n s) := by
  obtain ⟨-, same, hreports⟩ := h.read n
  obtain ⟨huflow, hcount⟩ := hreports rfl rfl
  have hs := afterRead_frame n s
  have ht := afterRead_frame n (withInput m s)
  unfold ReaderFrame at hs ht
  rw [ht, hs, same.acc, same.cnt, same.cursor, same.draws, huflow, hcount]
  rfl

/-- Emission does not look at the input. -/
theorem emit_withInput (b : Byte) (m : Memory) (s : State) : emit b (withInput m s) = withInput m (emit b s) := by
  by_cases h : s.outCount < s.declSize
  · rw [emit_of_lt h, emit_of_lt (s := withInput m s) h]
    rfl
  · rw [emit_of_not_lt h, emit_of_not_lt (s := withInput m s) h]
    rfl

theorem applyOffset_withInput (off : BitVec 13) (m : Memory) (s : State) :
    applyOffset off (withInput m s) = withInput m (applyOffset off s) := by
  unfold applyOffset
  split <;> rfl

/-- A visit that reads a field, or copies a byte, goes the same way where the readers are the same. -/
theorem coreStep_withInput_of_sameReader (h : SameReader s (withInput m s)) (hh : s.ctl ≠ .hdr) :
    coreStep (withInput m s) = mapNext (withInput m) (coreStep s) := by
  have hvalue : ∀ n, readValue n (withInput m s) = readValue n s := fun n => (h.read n).1
  have hafter := afterRead_withInput h
  cases hc : s.ctl
  case hdr => exact absurd hc hh
  case idle =>
    rw [coreStep_idle hc, coreStep_idle (s := withInput m s) hc]
    rfl
  case tok =>
    by_cases hle : s.declSize ≤ s.outCount
    · rw [coreStep_tok_of_le hc hle, coreStep_tok_of_le (s := withInput m s) hc hle]
      rfl
    · rw [coreStep_tok hc hle, coreStep_tok (s := withInput m s) hc hle, hvalue, hafter]
      rfl
  case lit =>
    rw [coreStep_lit hc, coreStep_lit (s := withInput m s) hc, hvalue, hafter, emit_withInput]
    rfl
  case mlen =>
    rw [coreStep_mlen hc, coreStep_mlen (s := withInput m s) hc, hvalue, hafter]
    split <;> rfl
  case moff =>
    rw [coreStep_moff hc, coreStep_moff (s := withInput m s) hc, hvalue, hafter]
    exact congrArg Host.Outcome.next (applyOffset_withInput _ m { afterRead 13 s with rem := _ })
  case copy =>
    rw [coreStep_copy hc, coreStep_copy (s := withInput m s) hc, copyVisit_eq, copyVisit_eq,
      show winRead (withInput m s) (withInput m s).src = winRead s s.src from rfl, emit_withInput]
    rfl

/-- Under the run invariant no visit of the core looks at the tag (R185). -/
theorem coreStep_withInput (hinv : RunInv s) (h : SameBeyondTag m s.inp) :
    coreStep (withInput m s) = mapNext (withInput m) (coreStep s) := by
  by_cases hidle : s.ctl = .idle
  · rw [coreStep_idle hidle, coreStep_idle (s := withInput m s) hidle]
    rfl
  by_cases hhdr : s.ctl = .hdr
  · rw [coreStep_hdr hhdr, coreStep_hdr (s := withInput m s) hhdr, headerVisit_withInput h]
    cases headerVisit s <;> rfl
  · exact coreStep_withInput_of_sameReader (sameReader_withInput h (hinv.cursor_ge hidle hhdr)) hhdr

end

/-- Settles O56: a quiet step is a visit of the core. -/
theorem tagIsNeverRead : Obligations.TagIsNeverRead := by
  intro s m hq hinv h
  have hq' : Quiet (withInput m s) := hq
  calc step (withInput m s)
      = coreStep (withInput m s) := step_of_quiet hq'
    _ = mapNext (withInput m) (coreStep s) := coreStep_withInput hinv h
    _ = mapNext (withInput m) (step s) := by rw [step_of_quiet hq]

end Sys2Proof.Machine

/-! ## The reports no visit reads (R45, R216)

A visit is compared with the same visit from the state whose reports are blanked. The operations of a visit write reports
but take nothing from them, so two states that differ in their reports only make the same visit. -/

namespace Sys2Proof.Machine

/-- The operation looks at no report: blanking the reports first changes nothing it leaves but reports (R216). -/
def ReadsNoReport (f : State → State) : Prop :=
  ∀ s : State, withoutReports (f (withoutReports s)) = withoutReports (f s)

/-- Operations in sequence look at no report when none of them does. -/
theorem ReadsNoReport.comp {f g : State → State} (hg : ReadsNoReport g) (hf : ReadsNoReport f) :
    ReadsNoReport fun s => g (f s) := fun s =>
  calc withoutReports (g (f (withoutReports s)))
      = withoutReports (g (withoutReports (f (withoutReports s)))) := (hg _).symm
    _ = withoutReports (g (withoutReports (f s))) := by rw [hf s]
    _ = withoutReports (g (f s)) := hg _

/-! ### The operations of a visit -/

theorem sameReader_withoutReports (s : State) : SameReader s (withoutReports s) :=
  ⟨rfl, rfl, rfl, rfl, rfl, rfl, fun _ _ => rfl⟩

theorem readValue_withoutReports (n : BitVec 5) (s : State) : readValue n (withoutReports s) = readValue n s :=
  ((sameReader_withoutReports s).read n).1

/-- A read writes UFLOW and UFLOW_COUNT; the reader goes on the same way (R135, R136). -/
theorem readsNoReport_afterRead (n : BitVec 5) : ReadsNoReport (afterRead n) := by
  intro s
  obtain ⟨-, same, -⟩ := (sameReader_withoutReports s).read n
  have hs := afterRead_frame n s
  have ht := afterRead_frame n (withoutReports s)
  unfold ReaderFrame at hs ht
  rw [ht, hs, same.acc, same.cnt, same.cursor, same.draws]
  rfl

/-- Emission writes TRUNC past the budget (R150). -/
theorem readsNoReport_emit (b : Byte) : ReadsNoReport (emit b) := by
  intro s
  by_cases h : s.outCount < s.declSize
  · rw [emit_of_lt h, emit_of_lt (s := withoutReports s) h]
    rfl
  · rw [emit_of_not_lt h, emit_of_not_lt (s := withoutReports s) h]
    rfl

/-- The offset step writes PREHIST (R155, R165). -/
theorem readsNoReport_applyOffset (off : BitVec 13) : ReadsNoReport (applyOffset off) := by
  intro s
  unfold applyOffset
  split <;> rfl

theorem readsNoReport_enterStage (stage : Stage) : ReadsNoReport (enterStage stage) := by
  intro s
  cases stage <;> rfl

theorem readsNoReport_setRem (r : BitVec 5) : ReadsNoReport fun s => { s with rem := r } := fun _ => rfl

/-- END writes SENTINEL (R154). -/
theorem readsNoReport_finishAtSentinel : ReadsNoReport fun s => finish { s with sentinel := true } := fun _ => rfl

theorem readsNoReport_copyVisit : ReadsNoReport copyVisit := by
  intro s
  rw [copyVisit_eq, copyVisit_eq]
  exact congrArg (fun u : State =>
      { u with src := s.src + 1, rem := s.rem - 1, ctl := if s.rem = 1 then .tok else s.ctl })
    (readsNoReport_emit (winRead s s.src) s)

/-! ### The header parse -/

theorem inRead_withoutReports (i : Word) (s : State) :
    inRead i (withoutReports s) = ((inRead i s).1, withoutReports (inRead i s).2) := by
  unfold inRead
  rw [show (withoutReports s).inDirty = s.inDirty from rfl]
  split <;> rfl

theorem readHeader_withoutReports (s : State) :
    readHeader (withoutReports s) = ((readHeader s).1, withoutReports (readHeader s).2) := by
  simp only [readHeader, inRead_withoutReports]

/-- The header parse neither reads nor writes a report. -/
theorem headerVisit_withoutReports (s : State) :
    headerVisit (withoutReports s) = (headerVisit s).map withoutReports := by
  simp only [headerVisit, readHeader_withoutReports]
  rw [show (withoutReports s).inLen = s.inLen from rfl]
  split
  · rfl
  · rw [show (withoutReports s).outCapacity = s.outCapacity from rfl]
    split <;> rfl

/-! ### The visits -/

/-- A visit from a state with its reports blanked is the visit from the state itself, but for the reports. -/
theorem coreStep_withoutReports (s : State) :
    mapNext withoutReports (coreStep (withoutReports s)) = mapNext withoutReports (coreStep s) := by
  have hread := readsNoReport_afterRead
  cases hc : s.ctl
  case idle =>
    rw [coreStep_idle hc, coreStep_idle (s := withoutReports s) hc]
    rfl
  case hdr =>
    rw [coreStep_hdr hc, coreStep_hdr (s := withoutReports s) hc, headerVisit_withoutReports]
    cases headerVisit s <;> rfl
  case tok =>
    by_cases hle : s.declSize ≤ s.outCount
    · rw [coreStep_tok_of_le hc hle, coreStep_tok_of_le (s := withoutReports s) hc hle]
      rfl
    · rw [coreStep_tok hc hle, coreStep_tok (s := withoutReports s) hc hle, readValue_withoutReports]
      split
      · exact congrArg Host.Outcome.next ((readsNoReport_enterStage .literal).comp (hread 1) s)
      · exact congrArg Host.Outcome.next ((readsNoReport_enterStage .length).comp (hread 1) s)
  case lit =>
    rw [coreStep_lit hc, coreStep_lit (s := withoutReports s) hc, readValue_withoutReports]
    exact congrArg Host.Outcome.next
      ((readsNoReport_enterStage .flag).comp ((readsNoReport_emit _).comp (hread 8)) s)
  case mlen =>
    rw [coreStep_mlen hc, coreStep_mlen (s := withoutReports s) hc, readValue_withoutReports]
    split
    · exact congrArg Host.Outcome.next (readsNoReport_finishAtSentinel.comp (hread 4) s)
    · exact congrArg Host.Outcome.next ((readsNoReport_enterStage (.offset _)).comp (hread 4) s)
  case moff =>
    rw [coreStep_moff hc, coreStep_moff (s := withoutReports s) hc, readValue_withoutReports]
    exact congrArg Host.Outcome.next
      ((readsNoReport_applyOffset _).comp ((readsNoReport_setRem _).comp (hread 13)) s)
  case copy =>
    rw [coreStep_copy hc, coreStep_copy (s := withoutReports s) hc]
    exact congrArg Host.Outcome.next (readsNoReport_copyVisit s)

/-- Settles O55: both states make the visit of their common state with blank reports, but for the reports. -/
theorem reportsAreNeverRead : Obligations.ReportsAreNeverRead := by
  intro s s' hq h
  have hinbox : (withoutReports s).inbox = (withoutReports s').inbox := congrArg State.inbox h
  have hq' : Quiet s' := hinbox.symm.trans hq
  rw [step_of_quiet hq, step_of_quiet hq']
  calc mapNext withoutReports (coreStep s)
      = mapNext withoutReports (coreStep (withoutReports s)) := (coreStep_withoutReports s).symm
    _ = mapNext withoutReports (coreStep (withoutReports s')) := by rw [h]
    _ = mapNext withoutReports (coreStep s') := coreStep_withoutReports s'

end Sys2Proof.Machine

/-! ## Hardware reset (R57, R240 to R242)

Hardware reset copies the reset state but for the host's own fields, so the register port shows the same after it
whatever state it interrupts, and the words of the reset state are closed terms. -/

namespace Sys2Proof.Machine

/-- Hardware reset answers a next state in every state, also during a run (R241). -/
theorem hostAction_hwReset (s : State) : hostAction .hwReset s = .next (hardwareReset s) := rfl

/-- Every register of the reset state reads 0, STATUS and the debug words too (R57). -/
theorem regValue_reset (offset : Nat) : regValue State.reset offset = 0 := by
  unfold regValue
  split <;> decide

/-- The register port does not see what the host keeps through a hardware reset (R240). -/
theorem regValue_hardwareReset (s : State) (offset : Nat) :
    regValue (hardwareReset s) offset = regValue State.reset offset := by
  unfold regValue
  split <;> rfl

/-- Settles O34: the next state is `hardwareReset s`. The port reads it as the reset state, and each of its fields is
the reset state's own or, for the two memories, that of `s`. -/
theorem hardwareResetClearsEveryRegister : Obligations.HardwareResetClearsEveryRegister := by
  intro s
  have hport : ∀ offset, regValue (hardwareReset s) offset = 0 := fun offset =>
    (regValue_hardwareReset s offset).trans (regValue_reset offset)
  exact ⟨hardwareReset s, hostAction_hwReset s, hport, rfl, rfl,
    rfl, rfl, rfl, rfl, rfl, rfl, rfl, rfl, rfl, rfl, rfl, rfl, rfl, rfl, rfl, rfl, rfl, rfl, rfl,
    rfl, rfl, regValue_reset, rfl, rfl⟩

end Sys2Proof.Machine

/-! ## Encoded tokens decode, every bit string begins with one (R100 to R103, R110), and packed payload bits (R114)

Every bit string is the digits of the number it denotes, so the rows of the opcode map above, which speak of a number's
digits, say how each bit string is decoded. -/

namespace Sys2Proof

/-! ### Decoding after encoding -/

/-- Digits with more bits behind them are the digits of one number. -/
theorem bitsLsb_append {n v : Nat} (hv : v < 2 ^ n) (rest : List Bool) :
    bitsLsb n v ++ rest = bitsLsb (n + rest.length) (v + 2 ^ n * valueLsb rest) := by
  have hlow : (v + 2 ^ n * valueLsb rest) % 2 ^ n = v := by
    rw [Nat.add_mul_mod_self_left, Nat.mod_eq_of_lt hv]
  have hhigh : (v + 2 ^ n * valueLsb rest) / 2 ^ n = valueLsb rest := by
    rw [Nat.add_mul_div_left _ _ (by positivity), Nat.div_eq_of_lt hv, Nat.zero_add]
  rw [bitsLsb_add, hhigh, bitsLsb_valueLsb, ← bitsLsb_mod n (_ + _), hlow]

/-- A token integer fits the token's length (R12, R100). -/
theorem tokenInteger_lt (i : Instr) : tokenInteger i < 2 ^ tokenLength i := by
  cases i with
  | endToken => exact Laws.EncodedLength.endToken.2.2.2
  | matchZeroOffset raw => exact (Laws.EncodedLength.matchZeroOffset raw).2.2.2
  | matchRef raw off => exact (Laws.EncodedLength.matchRef raw off).2.2.2
  | lit b => exact (Laws.EncodedLength.lit b).2.2.2

/-- A token's bits and the bits after it are the digits of one number. -/
theorem encode_append {i : Instr} {rest : List Bool} {n w : Nat} (hn : tokenLength i + rest.length = n)
    (hw : tokenInteger i + 2 ^ tokenLength i * valueLsb rest = w) : encode i ++ rest = bitsLsb n w := by
  rw [encode, bitsLsb_append (tokenInteger_lt i), hn, hw]

/-- A field's value is the digits it was read from. -/
theorem ofNat_eq_of_mod {n v : Nat} {x : BitVec n} (h : v % 2 ^ n = x.toNat) : BitVec.ofNat n v = x :=
  BitVec.eq_of_toNat_eq ((BitVec.toNat_ofNat v n).trans h)

theorem rawLength_ne_of_wellFormed {raw : BitVec 4} (h : rawLengthOk raw = true) : raw.toNat ≠ 15 := fun h15 => by
  rw [BitVec.eq_of_toNat_eq (y := 15) h15] at h
  exact absurd h (by decide)

theorem offset_pos_of_wellFormed {off : BitVec 13} (h : offsetOk off = true) : off.toNat ≠ 0 := fun h0 => by
  rw [BitVec.eq_of_toNat_eq (y := 0) h0] at h
  exact absurd h (by decide)

/-- Settles O1: the row of the opcode map for the number that the token's bits and the later bits are the digits of. -/
theorem decodeOfEncodeIsTheToken : Obligations.DecodeOfEncodeIsTheToken := by
  intro i rest hwf
  have hrest := bitsLsb_valueLsb rest
  generalize hr : valueLsb rest = r at hrest
  generalize hm : rest.length = m at hrest
  cases i with
  | endToken =>
    rw [encode_append (n := 1 + (4 + m)) (w := 31 + 32 * r) (by simp only [tokenLength]; omega) (by rw [hr]; rfl),
      decode_bitsLsb_endToken m (by omega) (by omega), show (31 + 32 * r) / 2 / 16 = r by omega, hrest]
  | matchZeroOffset raw =>
    have hraw := raw.isLt
    have hne := rawLength_ne_of_wellFormed hwf
    rw [encode_append (n := 1 + (4 + (13 + m))) (w := 1 + 2 * raw.toNat + 262144 * r)
        (by simp only [tokenLength]; omega) (by rw [hr]; rfl),
      decode_bitsLsb_matchZeroOffset m (by omega) (by omega) (by omega),
      show (1 + 2 * raw.toNat + 262144 * r) / 32 / 8192 = r by omega, hrest, ofNat_eq_of_mod (x := raw) (by omega)]
  | matchRef raw off =>
    obtain ⟨hwfraw, hwfoff⟩ := Bool.and_eq_true_iff.1 hwf
    have hraw := raw.isLt
    have hoff := off.isLt
    have hne := rawLength_ne_of_wellFormed hwfraw
    have hpos := offset_pos_of_wellFormed hwfoff
    rw [encode_append (n := 1 + (4 + (13 + m))) (w := 1 + 2 * raw.toNat + 32 * off.toNat + 262144 * r)
        (by simp only [tokenLength]; omega) (by rw [hr]; rfl),
      decode_bitsLsb_matchRef m (by omega) (by omega) (by omega),
      show (1 + 2 * raw.toNat + 32 * off.toNat + 262144 * r) / 32 / 8192 = r by omega, hrest,
      ofNat_eq_of_mod (x := raw) (by omega), ofNat_eq_of_mod (x := off) (by omega)]
  | lit b =>
    have hb := b.isLt
    rw [encode_append (n := 1 + (8 + m)) (w := 2 * b.toNat + 512 * r) (by simp only [tokenLength]; omega)
        (by rw [hr]; rfl),
      decode_bitsLsb_lit m (by omega), show (2 * b.toNat + 512 * r) / 2 / 256 = r by omega, hrest,
      ofNat_eq_of_mod (x := b) (by omega)]

/-! ### Every long enough bit string begins with a token -/

/-- Digits begin with a token's bits when their number begins with its integer. -/
theorem bitsLsb_eq_encode_append {i : Instr} {w q : Nat} (m : Nat) (hval : tokenInteger i = w % 2 ^ tokenLength i)
    (hq : w / 2 ^ tokenLength i = q) : bitsLsb (tokenLength i + m) w = encode i ++ bitsLsb m q := by
  rw [encode, hval, bitsLsb_mod, bitsLsb_add, hq]

/-- The digits of a number, if there are 18 or more, begin with a token. -/
theorem exists_decode_bitsLsb (m w : Nat) : ∃ i rest, decode (bitsLsb (18 + m) w) = .ok (i, rest) ∧
    WellFormed i = true ∧ bitsLsb (18 + m) w = encode i ++ rest := by
  by_cases hflag : w % 2 = 0
  · rw [show 18 + m = 1 + (8 + (9 + m)) by omega]
    refine ⟨_, _, decode_bitsLsb_lit _ hflag, rfl, ?_⟩
    rw [show 1 + (8 + (9 + m)) = 9 + (9 + m) by omega]
    refine bitsLsb_eq_encode_append (i := .lit _) _ ?_ ?_
    · simp only [tokenInteger, tokenLength, BitVec.toNat_ofNat]; omega
    · simp only [tokenLength]; omega
  replace hflag : w % 2 = 1 := by omega
  by_cases hlen : w / 2 % 16 = 15
  · rw [show 18 + m = 1 + (4 + (13 + m)) by omega]
    refine ⟨_, _, decode_bitsLsb_endToken _ hflag hlen, rfl, ?_⟩
    rw [show 1 + (4 + (13 + m)) = 5 + (13 + m) by omega]
    refine bitsLsb_eq_encode_append (i := .endToken) _ ?_ ?_
    · simp only [tokenInteger, tokenLength]; omega
    · simp only [tokenLength]; omega
  have hraw : rawLengthOk (BitVec.ofNat 4 (w / 2)) = true :=
    bne_iff_ne.2 fun h => hlen (by simpa using congrArg BitVec.toNat h)
  by_cases hoff : w / 32 % 8192 = 0
  · have hdecode := decode_bitsLsb_matchZeroOffset m hflag hlen hoff
    rw [show 1 + (4 + (13 + m)) = 18 + m by omega] at hdecode
    refine ⟨_, _, hdecode, hraw, bitsLsb_eq_encode_append (i := .matchZeroOffset _) _ ?_ ?_⟩
    · simp only [tokenInteger, tokenLength, BitVec.toNat_ofNat]; omega
    · simp only [tokenLength]; omega
  · have hdecode := decode_bitsLsb_matchRef m hflag hlen hoff
    rw [show 1 + (4 + (13 + m)) = 18 + m by omega] at hdecode
    have hoffOk : offsetOk (BitVec.ofNat 13 (w / 32)) = true :=
      bne_iff_ne.2 fun h => hoff (by simpa using congrArg BitVec.toNat h)
    refine ⟨_, _, hdecode, Bool.and_eq_true_iff.2 ⟨hraw, hoffOk⟩,
      bitsLsb_eq_encode_append (i := .matchRef _ _) _ ?_ ?_⟩
    · simp only [tokenInteger, tokenLength, BitVec.toNat_ofNat]; omega
    · simp only [tokenLength]; omega

/-- Settles O2: a token is there as the string is the digits of a number, and it is the only one by O1. -/
theorem everyBitStringBeginsWithOneToken : Obligations.EveryBitStringBeginsWithOneToken := by
  intro bits hlen
  obtain ⟨i, rest, hdecode, hwf, heq⟩ := exists_decode_bitsLsb (bits.length - 18) (valueLsb bits)
  rw [show 18 + (bits.length - 18) = bits.length by omega, bitsLsb_valueLsb] at hdecode heq
  refine ⟨i, rest, hdecode, hwf, heq, fun j rest' hwf' heq' => ?_⟩
  have hj := decodeOfEncodeIsTheToken j rest' hwf'
  rw [← heq', hdecode] at hj
  cases hj
  rfl

/-! ### Packed payload bits -/

/-- A byte made of at most 8 bits reads as those bits and zeros up to the eighth (R114). -/
theorem payloadBits_byte {bits : List Bool} (h : bits.length ≤ 8) :
    bitsLsb 8 (BitVec.ofNat 8 (valueLsb bits)).toNat = bits ++ List.replicate (8 - bits.length) false := by
  have hzero : ∀ n, bitsLsb n 0 = List.replicate n false := fun n => by
    induction n with
    | zero => rfl
    | succ n ih => rw [bitsLsb, ih]; rfl
  calc bitsLsb 8 (BitVec.ofNat 8 (valueLsb bits)).toNat
      = bitsLsb (bits.length + (8 - bits.length)) (valueLsb bits) := by
        rw [BitVec.toNat_ofNat, bitsLsb_mod, Nat.add_sub_cancel' h]
    _ = bits ++ List.replicate (8 - bits.length) false := by
        rw [bitsLsb_add, bitsLsb_valueLsb, Nat.div_eq_of_lt (valueLsb_lt bits), hzero]

/-- The bytes of a memory read one after the other (R76). -/
theorem payloadBits_cons (b : Byte) (bytes : List Byte) :
    payloadBits (b :: bytes) = bitsLsb 8 b.toNat ++ payloadBits bytes := rfl

/-- Settles O4: each byte holds eight bits of the string, and the last one is filled up with zeros. -/
theorem packedBitsReadBack : Obligations.PackedBitsReadBack := by
  intro bits
  induction bits using packBits.induct with
  | case1 => exact ⟨0, by decide, rfl⟩
  | case2 b0 b1 b2 b3 b4 b5 b6 b7 rest ih =>
    obtain ⟨pad, hpad, hrest⟩ := ih
    refine ⟨pad, hpad, ?_⟩
    rw [packBits, payloadBits_cons, hrest, payloadBits_byte (by simp)]
    rfl
  | case3 short hne hlong =>
    have hlen : 0 < short.length ∧ short.length < 8 := by
      refine ⟨List.length_pos_iff.2 hne, Nat.lt_of_not_le fun h => ?_⟩
      match short, h, hlong with
      | b0 :: b1 :: b2 :: b3 :: b4 :: b5 :: b6 :: b7 :: rest, _, hlong => exact hlong _ _ _ _ _ _ _ _ rest rfl
    refine ⟨8 - short.length, by omega, ?_⟩
    rw [packBits, payloadBits_cons, payloadBits_byte hlen.2.le]
    · simp [payloadBits]
    · exact hne
    · exact hlong

end Sys2Proof

/-! ## What a read leaves: the bits it takes (R34, R133, R136), the payload position (R44) and underflow (R135, R217)

A read of width `n` makes some number of refills; `Refilled` above says what they leave in CNT, CURSOR and the reports,
and the extraction takes `n` bits off CNT. So the position, which weighs those registers, advances by `n`. -/

namespace Sys2Proof.Machine

/-! ### The counts after a read -/

/-- What a read of width `n` leaves in the registers it counts with, `r` being its number of refills (R138). -/
structure ReadCounts (n r : Nat) (s t : State) : Prop where
  cnt : t.cnt.toNat + n = s.cnt.toNat + 8 * r
  cnt_le : s.cnt.toNat ≤ 7 → t.cnt.toNat ≤ 7
  cursor : t.cursor.toNat = s.cursor.toNat + min r (inputLeft s)
  uflowCount : t.uflowCount.toNat = min (s.uflowCount.toNat + (r - min r (inputLeft s))) 0xFFFFFFFF
  uflow : t.uflow = (s.uflow || decide (min r (inputLeft s) < r))

theorem readCounts_afterRead {n : BitVec 5} (hn : n.toNat ≤ 16) (s : State) :
    ∃ r, ReadCounts n.toNat r s (afterRead n s) := by
  obtain ⟨hcnt, hcursor, hcount, huflow⟩ := refilled_refillUntil hn 2 s (by omega)
  have hwidth := (refillUntil_spec hn s).1
  have hdrop : (afterRead n s).cnt.toNat = (refillUntil 2 n s).cnt.toNat - n.toNat := dropBits_cnt_toNat hwidth
  refine ⟨_, by omega, fun hc => ?_, hcursor, hcount, huflow⟩
  have := (refillsNeeded_bounds hn hc).2
  omega

/-- A read keeps the reader clean (R34). -/
theorem ReaderInv.afterRead {s : State} (h : ReaderInv s) {n : BitVec 5} (hn : n.toNat ≤ 16) :
    ReaderInv (afterRead n s) := by
  obtain ⟨r, hr⟩ := readCounts_afterRead hn s
  exact ⟨hr.cnt_le h.cnt_le, acc_lt_afterRead hn h.acc_lt⟩

/-- A clean accumulator has no 1 bit at or above CNT (R34). -/
theorem getLsbD_of_lt_two_pow {w m : Nat} {x : BitVec w} (h : x.toNat < 2 ^ m) {i : Nat} (hi : m ≤ i) :
    x.getLsbD i = false := by
  rw [← BitVec.testBit_toNat]
  exact Nat.testBit_lt_two_pow (h.trans_le (Nat.pow_le_pow_right (by decide) hi))

/-- Settles O9: CNT after the refills is counted, and both the refills and the extraction leave ACC below 2^CNT. -/
theorem readKeepsTheReaderInvariant : Obligations.ReadKeepsTheReaderInvariant := by
  intro n s hn hinv
  obtain ⟨hwidth, hclean⟩ := refillUntil_spec hn s
  obtain ⟨hacc, -⟩ := hclean hinv.acc_lt
  have hcnt := (refilled_refillUntil hn 2 s (by omega)).cnt
  have hseven := (refillsNeeded_bounds hn hinv.cnt_le).2
  have hmost : (refillUntil 2 n s).cnt.toNat ≤ n.toNat + 7 := by omega
  refine ⟨⟨hwidth, hmost, by omega, hacc, fun i hi => ?_⟩, _, _, readBits_of_le hn s, hinv.afterRead hn⟩
  exact getLsbD_of_lt_two_pow hacc (by omega)

/-- Settles O7: a legal read answers its value, and `read_spec` says which bits it is. -/
theorem readReturnsTheNextPayloadBits : Obligations.ReadReturnsTheNextPayloadBits := by
  intro n s hn hinv hclean
  obtain ⟨hvalue, hahead⟩ := read_spec hn hinv.acc_lt hclean
  exact ⟨_, _, readBits_of_le hn s, hvalue, hahead⟩

/-- Settles O10: a read that answers a value leaves `afterRead`, whose frame is the reader's. -/
theorem readHasNoOtherEffect : Obligations.ReadHasNoOtherEffect := by
  intro n s t v h
  obtain ⟨-, -, rfl⟩ := readBits_value h
  exact afterRead_frame n s

/-! ### The payload position (R44) -/

/-- A saturated UFLOW_COUNT stays so over a read (R46). -/
theorem uflowCount_ne_of_afterRead {n : BitVec 5} (hn : n.toNat ≤ 16) {s : State}
    (h : (afterRead n s).uflowCount ≠ 0xFFFFFFFF) : s.uflowCount ≠ 0xFFFFFFFF := by
  obtain ⟨r, hr⟩ := readCounts_afterRead hn s
  have hcount := hr.uflowCount
  intro heq
  refine h (BitVec.eq_of_toNat_eq ?_)
  rw [heq] at hcount
  exact hcount.trans (Nat.min_eq_right (Nat.le_add_right _ _))

/-- A read of width `n` advances the position by `n` bits, unless it saturates UFLOW_COUNT (R44, R46). -/
theorem tp_afterRead {n : BitVec 5} (hn : n.toNat ≤ 16) {s : State} (h : (afterRead n s).uflowCount ≠ 0xFFFFFFFF) :
    tp (afterRead n s) = tp s + n.toNat := by
  obtain ⟨r, hcnt, -, hcursor, hcount, -⟩ := readCounts_afterRead hn s
  have hlt : (afterRead n s).uflowCount.toNat < 0xFFFFFFFF := by
    have := (afterRead n s).uflowCount.isLt
    have hne : (afterRead n s).uflowCount.toNat ≠ 0xFFFFFFFF := fun heq => h (BitVec.eq_of_toNat_eq heq)
    omega
  simp only [tp]
  omega

/-- The position depends on CURSOR, UFLOW_COUNT and CNT alone. -/
theorem tp_congr {s t : State} (hcursor : t.cursor = s.cursor) (hcount : t.uflowCount = s.uflowCount)
    (hcnt : t.cnt = s.cnt) : tp t = tp s := by
  simp only [tp, hcursor, hcount, hcnt]

section
variable (m : Nat) (p : WinIx) (s : State)
@[simp] theorem copyBytes_cnt : (copyBytes m p s).cnt = s.cnt := by rw [copyBytes_frame]
@[simp] theorem copyBytes_cursor : (copyBytes m p s).cursor = s.cursor := by rw [copyBytes_frame]
@[simp] theorem copyBytes_uflowCount : (copyBytes m p s).uflowCount = s.uflowCount := by rw [copyBytes_frame]
@[simp] theorem copyBytes_inbox : (copyBytes m p s).inbox = s.inbox := by rw [copyBytes_frame]
@[simp] theorem copyBytes_declSize : (copyBytes m p s).declSize = s.declSize := by rw [copyBytes_frame]
end

/-- The state from which one whole token's effect is made: its fields are read. -/
def afterFields (i : Instr) (s : State) : State :=
  match i with
  | .lit _ => afterRead 8 (afterRead 1 s)
  | .endToken => afterRead 4 (afterRead 1 s)
  | .matchZeroOffset _ => afterRead 13 (afterRead 4 (afterRead 1 s))
  | .matchRef _ _ => afterRead 13 (afterRead 4 (afterRead 1 s))

/-- Reading a token's fields advances the position by the token's length (R44, R100). -/
theorem tp_afterFields (i : Instr) {s : State} (h : (afterFields i s).uflowCount ≠ 0xFFFFFFFF) :
    tp (afterFields i s) = tp s + tokenLength i := by
  have flag : ∀ {n : BitVec 5}, n.toNat ≤ 16 → (afterRead n (afterRead 1 s)).uflowCount ≠ 0xFFFFFFFF →
      tp (afterRead n (afterRead 1 s)) = tp s + 1 + n.toNat := fun hn hne => by
    rw [tp_afterRead hn hne, tp_afterRead (by decide) (uflowCount_ne_of_afterRead hn hne)]
    rfl
  have offset : (afterRead 13 (afterRead 4 (afterRead 1 s))).uflowCount ≠ 0xFFFFFFFF →
      tp (afterRead 13 (afterRead 4 (afterRead 1 s))) = tp s + 1 + 4 + 13 := fun hne => by
    rw [tp_afterRead (by decide) hne, flag (by decide) (uflowCount_ne_of_afterRead (n := 13) (by decide) hne)]
    rfl
  cases i with
  | lit b => exact (flag (by decide) h).trans (Int.add_assoc _ 1 8)
  | endToken => exact (flag (by decide) h).trans (Int.add_assoc _ 1 4)
  | matchZeroOffset raw => exact (offset h).trans (by simp only [tokenLength]; omega)
  | matchRef raw off => exact (offset h).trans (by simp only [tokenLength]; omega)

/-- One whole token of the payload moves the reader as reading its fields does. -/
theorem reader_wholeToken {s : State} {i : Instr} {rest : List Bool} (hinv : ReaderInv s) (hclean : s.inDirty = [])
    (h : decode (nextBits s 18) = .ok (i, rest)) :
    (wholeToken s).cursor = (afterFields i s).cursor ∧
    (wholeToken s).uflowCount = (afterFields i s).uflowCount ∧ (wholeToken s).cnt = (afterFields i s).cnt := by
  rw [decode_nextBits hinv.acc_lt hclean] at h
  rw [wholeToken_eq]
  by_cases hflag : (readValue 1 s).setWidth 1 = (0 : BitVec 1)
  · rw [if_pos hflag] at h
    simp only [if_pos hflag]
    cases h
    simp [afterFields]
  rw [if_neg hflag] at h
  simp only [if_neg hflag]
  by_cases hlen : (readValue 4 (afterRead 1 s)).setWidth 4 = (15 : BitVec 4)
  · rw [if_pos hlen] at h
    simp only [if_pos hlen]
    cases h
    simp [afterFields]
  rw [if_neg hlen] at h
  simp only [if_neg hlen]
  by_cases hoff : (readValue 13 (afterRead 4 (afterRead 1 s))).setWidth 13 = (0 : BitVec 13)
  · simp only [if_pos hoff] at h ⊢
    cases h
    simp [afterFields]
  · simp only [if_neg hoff] at h ⊢
    cases h
    simp [afterFields]

/-- Settles O11: a whole token moves the reader as its fields do, and their widths are the token's length. -/
theorem tokenAdvancesThePositionByItsLength : Obligations.TokenAdvancesThePositionByItsLength := by
  intro s i rest hinv hclean hdecode hne
  obtain ⟨hcursor, hcount, hcnt⟩ := reader_wholeToken hinv hclean hdecode
  rw [tp_congr hcursor hcount hcnt, tp_afterFields i (hcount ▸ hne)]

/-! ### Reading past the end of the input (R135) -/

/-- Nothing is left to read: no input byte, and no 1 bit in ACC. -/
structure Exhausted (s : State) : Prop where
  input : s.inLen.toNat ≤ s.cursor.toNat
  acc : s.acc = 0

theorem Exhausted.refill {s : State} (h : Exhausted s) : Exhausted (refill s) := by
  have hend : ¬ s.cursor < s.inLen := fun hlt => Nat.not_lt.2 h.input (BitVec.lt_def.1 hlt)
  unfold Machine.refill
  rw [if_neg hend]
  exact ⟨h.input, by simp [h.acc]⟩

theorem Exhausted.refillUntil {s : State} (h : Exhausted s) (fuel : Nat) (n : BitVec 5) :
    Exhausted (refillUntil fuel n s) := by
  induction fuel generalizing s with
  | zero => exact h
  | succ fuel ih =>
    unfold Machine.refillUntil
    split
    · exact ih h.refill
    · exact h

/-- With nothing left every read returns 0 bits (R135). -/
theorem Exhausted.readValue_eq {s : State} (h : Exhausted s) (n : BitVec 5) : readValue n s = 0 := by
  rw [readValue, (h.refillUntil 2 n).acc, lowBits]
  simp

/-- A read wider than CNT with no input byte left reports the underflow and leaves CURSOR (R135). -/
theorem underflow_afterRead {n : BitVec 5} (hn : n.toNat ≤ 16) {s : State} (hwide : s.cnt.toNat < n.toNat)
    (hend : s.inLen.toNat ≤ s.cursor.toNat) :
    (afterRead n s).uflow = true ∧ (afterRead n s).cursor = s.cursor := by
  obtain ⟨r, hr⟩ := readCounts_afterRead hn s
  have hleft : inputLeft s = 0 := inputLeft_eq_zero (Nat.not_lt.2 hend)
  have hcnt := hr.cnt
  have hpos : 0 < r := by omega
  refine ⟨by simp [hr.uflow, hleft, hpos], BitVec.eq_of_toNat_eq ?_⟩
  rw [hr.cursor, hleft, Nat.min_zero, Nat.add_zero]

/-- Settles O32: the offset read is 0, so the visit raises CORRUPT_STREAM, and its refills are underflows. -/
theorem underflowedOffsetReportsBoth : Obligations.UnderflowedOffsetReportsBoth := by
  intro s s0 hcore hc hacc hcnt hend
  have hzero := Exhausted.readValue_eq ⟨hend, hacc⟩ 13
  obtain ⟨huflow, hcursor⟩ := underflow_afterRead (n := 13) (by decide) (s := s0) (hcnt.trans_lt (by decide)) hend
  refine ⟨raise .corruptStream { afterRead 13 s0 with rem := matchLength (rawLengthOf s0.rem) }, ?_, huflow, rfl, rfl,
    rfl, afterRead_prehist 13 s0, hcursor⟩
  rw [step_of_core hcore, coreStep_moff hc, hzero]
  rfl

end Sys2Proof.Machine

/-! ## The tokens' own visits (R152 to R158), a match with its copy (R157, R162) and which visits stop (R197)

Each token's next state is one of the terms of Laws/Step.lean; the claims are about its fields. A whole match is the
copy as one function, `copyBytes`, from the state its own visit leaves. -/

namespace Sys2Proof.Machine

/-! ### LIT (R152) -/

/-- Settles O13: LIT emits its byte from the state that its read leaves. -/
theorem litEmitsItsByte : Obligations.LitEmitsItsByte := by
  intro b s
  refine ⟨_, _, _, readBits_literal s, exec_lit b s, rfl, ?_, ?_, ?_, fun hlt => ?_, fun hle => ?_, ?_⟩
  · exact (winRead_emit b (afterRead 8 s) s.wptr).trans (if_pos (afterRead_wptr 8 s).symm)
  · exact (emit_wptr_toNat b (afterRead 8 s)).trans (by rw [afterRead_wptr])
  · exact (emit_fill_toNat b (afterRead 8 s)).trans (by rw [afterRead_fill])
  · obtain ⟨hout, hcount, htrunc⟩ := emit_within_budget b (s := afterRead 8 s) (by simpa using hlt)
    rw [afterRead_outCount] at hout hcount
    exact ⟨(hout _).trans (if_pos rfl), hcount, htrunc.trans (afterRead_trunc 8 s)⟩
  · obtain ⟨-, hcount, htrunc⟩ := emit_past_budget b (s := afterRead 8 s) (by simpa using hle)
    exact ⟨hcount.trans (afterRead_outCount 8 s), htrunc⟩
  · exact ⟨emit_acc _ _, emit_cnt _ _, emit_cursor _ _, emit_uflow _ _, emit_uflowCount _ _⟩

/-- What an emission after LIT's read may change (R136, R150). -/
theorem emit_afterRead_frame (b : Byte) (s : State) : emit b (afterRead 8 s) = { s with
    acc := (afterRead 8 s).acc, cnt := (afterRead 8 s).cnt, cursor := (afterRead 8 s).cursor
    uflow := (afterRead 8 s).uflow, uflowCount := (afterRead 8 s).uflowCount, draws := (afterRead 8 s).draws
    win := (emit b (afterRead 8 s)).win, wptr := (emit b (afterRead 8 s)).wptr
    fill := (emit b (afterRead 8 s)).fill, out := (emit b (afterRead 8 s)).out
    outCount := (emit b (afterRead 8 s)).outCount, trunc := (emit b (afterRead 8 s)).trunc } := by
  have hread := afterRead_frame 8 s
  have hemit := emit_frame b (afterRead 8 s)
  unfold ReaderFrame at hread
  generalize emit b (afterRead 8 s) = t at hemit ⊢
  rw [hemit]
  generalize afterRead 8 s = u at hread ⊢
  rw [hread]

/-- Settles O14: what `emit` writes, and the frames of a read and of `emit`. -/
theorem litFrame : Obligations.LitFrame := by
  intro b s t h
  rw [exec_lit] at h
  cases h
  refine ⟨fun p hp => ?_, fun i hi => ?_, fun hle i => ?_, fun i => ?_, ?_⟩
  · refine (winRead_emit b (afterRead 8 s) p).trans ?_
    rw [afterRead_wptr, if_neg hp, winRead_afterRead]
  · refine (outByte_emit b (afterRead 8 s) i).trans ?_
    rw [afterRead_outCount, if_neg fun k => hi k.2, outByte_afterRead]
  · obtain ⟨hout, -⟩ := emit_past_budget b (s := afterRead 8 s) (by simpa using hle)
    exact (hout i).trans (outByte_afterRead 8 s i)
  · exact (inByte_emit b (afterRead 8 s) i).trans (inByte_afterRead 8 s i)
  · have hframe := emit_afterRead_frame b s
    generalize emit b (afterRead 8 s) = u at hframe ⊢
    rw [hframe]

/-! ### The tokens that store nothing (R153 to R155, R158) -/

/-- Settles O15: END finishes the run from the state that its read leaves. -/
theorem endEndsTheRun : Obligations.EndEndsTheRun := fun s => ⟨_, _, readBits_length s, exec_endToken s⟩

/-- Settles O16: the zero offset raises CORRUPT_STREAM in the state that its read leaves. -/
theorem zeroOffsetRaisesCorruptStream : Obligations.ZeroOffsetRaisesCorruptStream := fun raw s =>
  ⟨_, _, readBits_offset s, exec_matchZeroOffset raw s⟩

/-- Settles O17: a MATCH's next state, its source and length said in numbers. -/
theorem matchStartsTheCopy : Obligations.MatchStartsTheCopy := by
  intro raw off s hoff
  refine ⟨_, _, _, readBits_offset s, exec_matchRef_of_ne hoff raw s, matchSource_toNat s.wptr off,
    matchLength_toNat raw, ?_, rfl, rfl⟩
  rw [← beyondHistory_eq]

/-- Where a token's visit changes the control and status registers only after its read, its frame is the reader's and
those registers. -/
theorem ReaderFrame.registers {s u t : State} (hread : ReaderFrame s u)
    (ht : t = { u with
      ctl := t.ctl, src := t.src, rem := t.rem, prehist := t.prehist, sentinel := t.sentinel, done := t.done
      err := t.err, resultValid := t.resultValid }) :
    t = { s with
      acc := u.acc, cnt := u.cnt, cursor := u.cursor, uflow := u.uflow, uflowCount := u.uflowCount
      draws := u.draws, ctl := t.ctl, src := t.src, rem := t.rem, prehist := t.prehist
      sentinel := t.sentinel, done := t.done, err := t.err, resultValid := t.resultValid } := by
  unfold ReaderFrame at hread
  rw [ht, hread]

/-- Settles O18: each token's next state is the one its read leaves, with the registers named changed. -/
theorem registerTokensFrame : Obligations.RegisterTokensFrame := by
  intro i s t hlit hwf h
  cases i with
  | lit b => exact absurd rfl (hlit b)
  | endToken =>
    rw [exec_endToken] at h
    cases h
    refine ⟨winRead_afterRead 4 s, outByte_afterRead 4 s, inByte_afterRead 4 s,
      (afterRead_frame 4 s).registers rfl, ?_, nofun, nofun⟩
    exact fun _ => ⟨afterRead_rem 4 s, afterRead_src 4 s, afterRead_prehist 4 s, afterRead_err 4 s⟩
  | matchZeroOffset raw =>
    rw [exec_matchZeroOffset] at h
    cases h
    refine ⟨winRead_afterRead 13 s, outByte_afterRead 13 s, inByte_afterRead 13 s,
      (afterRead_frame 13 s).registers rfl, nofun, ?_, nofun⟩
    exact fun _ _ => ⟨afterRead_src 13 s, afterRead_prehist 13 s, afterRead_sentinel 13 s⟩
  | matchRef raw off =>
    rw [exec_matchRef_of_ne (offset_ne_zero_of_wellFormed hwf)] at h
    cases h
    refine ⟨winRead_afterRead 13 s, outByte_afterRead 13 s, inByte_afterRead 13 s,
      (afterRead_frame 13 s).registers rfl, nofun, nofun, ?_⟩
    exact fun _ _ _ => ⟨afterRead_sentinel 13 s, afterRead_done 13 s, afterRead_err 13 s, afterRead_resultValid 13 s⟩

/-! ### A match with its copy (R157, R162) -/

/-- Settles O20: the copy visits make the copy as one function, from WPTR as the match found it. -/
theorem matchCopiesItsWholeLength : Obligations.MatchCopiesItsWholeLength := by
  intro raw off s hwf hq
  have hoff := offset_ne_zero_of_wellFormed hwf
  obtain ⟨t, hexec⟩ := exec_next (.matchRef raw off) s
  obtain ⟨hwptr, -⟩ := window_of_exec_matchRef hoff hexec
  exact ⟨t, hexec, hwptr ▸ runs_of_exec_matchRef hoff hq hexec⟩

section
variable (n : Nat) (p : WinIx) {s : State}

/-- A copy of one byte or more counts its bytes in FILL, up to the window's size (R38). -/
theorem copyBytes_succ_fill : (copyBytes (n + 1) p s).fill.toNat = min (s.fill.toNat + (n + 1)) 8192 := by
  induction n with
  | zero => exact emit_fill_toNat _ s
  | succ n ih => rw [copyBytes_succ_last, emit_fill_toNat, ih]; omega

variable (hle : s.outCount.toNat ≤ s.declSize.toNat)
include hle

/-- A copy counts its bytes in OUT_COUNT, up to the declared size (R150). -/
theorem copyBytes_outCount :
    (copyBytes n p s).outCount.toNat = min (s.outCount.toNat + n) s.declSize.toNat := by
  induction n with
  | zero => exact (Nat.min_eq_left hle).symm
  | succ n ih =>
    rw [copyBytes_succ_last, emit_outCount_toNat, copyBytes_declSize, ih]
    split <;> omega

/-- A copy sets TRUNC when it reaches beyond the declared size (R150). -/
theorem copyBytes_trunc :
    (copyBytes n p s).trunc = (s.trunc || decide (s.declSize.toNat < s.outCount.toNat + n)) := by
  induction n with
  | zero => simp [copyBytes, hle]
  | succ n ih =>
    have hlast : decide ((copyBytes n p s).outCount < s.declSize) =
        decide (s.outCount.toNat + n < s.declSize.toNat) := by
      refine decide_eq_decide.2 (BitVec.lt_def.trans ?_)
      rw [copyBytes_outCount n p hle]
      omega
    rw [copyBytes_succ_last, emit_trunc, copyBytes_declSize, hlast, ih, Bool.or_assoc, ← decide_not, ← Bool.decide_or]
    congr 1
    exact decide_eq_decide.2 (by omega)

/-- Within the budget the output gets each byte of a copy that the window gets (R150, R162). -/
theorem outByte_copyBytes_of_lt (hn : n ≤ 8192) {i : Nat} (hi : i < n)
    (hbudget : s.outCount.toNat + i < s.declSize.toNat) :
    outByte (copyBytes n p s) (s.outCount.toNat + i) = winRead (copyBytes n p s) (s.wptr + BitVec.ofNat 13 i) := by
  induction n with
  | zero => omega
  | succ n ih =>
    have hcount := copyBytes_outCount n p hle
    rw [copyBytes_succ_last, outByte_emit, winRead_emit, copyBytes_wptr, copyBytes_declSize, hcount]
    rcases Nat.lt_succ_iff_lt_or_eq.1 hi with hlt | rfl
    · have hcell : s.wptr + BitVec.ofNat 13 i ≠ s.wptr + BitVec.ofNat 13 n := by bv_omega
      rw [if_neg (by omega), if_neg hcell]
      exact ih (by omega) hlt
    · rw [if_pos (by omega), if_pos rfl]

/-- A copy changes no output byte but those it counts (R150). -/
theorem outByte_copyBytes_of_not_counted {i : Nat}
    (hi : i < s.outCount.toNat ∨ (copyBytes n p s).outCount.toNat ≤ i) :
    outByte (copyBytes n p s) i = outByte s i := by
  rw [copyBytes_outCount n p hle] at hi
  induction n with
  | zero => rfl
  | succ n ih =>
    have hcount := copyBytes_outCount n p hle
    rw [copyBytes_succ_last, outByte_emit, copyBytes_declSize, hcount, if_neg (by omega)]
    exact ih (by omega)

end

/-- A MATCH's own visit keeps the stores and TRUNC (R155). -/
theorem stores_of_exec_matchRef {raw : BitVec 4} {off : BitVec 13} {s t : State} (hoff : off ≠ 0)
    (h : exec (.matchRef raw off) s = .next t) : stores t = stores s ∧ t.trunc = s.trunc := by
  rw [exec_matchRef_of_ne hoff] at h
  cases h
  exact ⟨stores_afterRead 13 s, afterRead_trunc 13 s⟩

/-- Settles O22: each clause is a fact about the copy as one function, from the stores of the state before. -/
theorem matchIsNeverCutShort : Obligations.MatchIsNeverCutShort := by
  intro raw off s hwf hq hle
  have hoff := offset_ne_zero_of_wellFormed hwf
  obtain ⟨t, hexec⟩ := exec_next (.matchRef raw off) s
  obtain ⟨hstores, htrunc⟩ := stores_of_exec_matchRef hoff hexec
  obtain ⟨-, hwptr, hfill, hout, hcount, hdecl⟩ := stores_eq_iff.1 hstores
  have hbytes : ∀ i, outByte t i = outByte s i := fun i => by simp only [outByte, hout]
  have hle' : t.outCount.toNat ≤ t.declSize.toNat := by rwa [hcount, hdecl]
  refine ⟨t, _, hexec, runs_of_exec_matchRef hoff hq hexec, rfl, ?_⟩
  rw [← hwptr, ← hfill, ← hcount, ← hdecl, ← htrunc]
  refine ⟨?_, ?_, copyBytes_outCount _ _ hle', copyBytes_trunc _ _ hle', fun i hi hbudget => ?_, fun i hi => ?_⟩
  · exact (congrArg BitVec.toNat (copyBytes_wptr (raw.toNat + 3) _ t)).trans (by
      rw [BitVec.toNat_add, BitVec.toNat_ofNat, Nat.add_mod_mod])
  · exact copyBytes_succ_fill (raw.toNat + 2) _
  · exact outByte_copyBytes_of_lt _ _ hle' (by omega) hi hbudget
  · exact (outByte_copyBytes_of_not_counted _ _ hle' hi).trans (hbytes i)

end Sys2Proof.Machine

/-! ## What a visit of the core can do (R43, R151 to R156, R183, R184)

`VisitTo s t` lists once the next states of a visit, one constructor for each way it can go. The invariants of a run and
its bound are proved along this list. -/

namespace Sys2Proof.Machine

/-- `t` is what a visit of the core makes of `s`. -/
inductive VisitTo (s : State) : State → Prop
  /-- IDLE waits (R226). -/
  | wait (hc : s.ctl = .idle) : VisitTo s s
  /-- The stream is shorter than its header (R183). -/
  | malformed (hc : s.ctl = .hdr) (hlen : s.inLen.toNat < 8) : VisitTo s (raise .malformedHeader s)
  /-- The header is parsed (R184). -/
  | header (hc : s.ctl = .hdr) (hlen : 8 ≤ s.inLen.toNat) (hcap : (readHeader s).1.toNat ≤ s.outCapacity) :
    VisitTo s { s with
      declSize := (readHeader s).1, cursor := 8, ctl := .tok, draws := (readHeader s).2.draws }
  /-- The declared size is reached (R151, R187). -/
  | full (hc : s.ctl = .tok) (hle : s.declSize.toNat ≤ s.outCount.toNat) : VisitTo s (finish s)
  /-- The type flag (R151). -/
  | flag (c : Ctl) (hc : s.ctl = .tok) (hlt : s.outCount.toNat < s.declSize.toNat) (hnext : c = .lit ∨ c = .mlen) :
    VisitTo s { afterRead 1 s with ctl := c }
  /-- The literal byte (R152). -/
  | literal (b : Byte) (hc : s.ctl = .lit) : VisitTo s { emit b (afterRead 8 s) with ctl := .tok }
  /-- The sentinel (R153, R154). -/
  | sentinel (hc : s.ctl = .mlen) : VisitTo s (finish { afterRead 4 s with sentinel := true })
  /-- A raw length (R153). -/
  | length (raw : BitVec 4) (hc : s.ctl = .mlen) (hraw : raw ≠ 15) :
    VisitTo s { afterRead 4 s with rem := matchLength raw, ctl := .moff }
  /-- The offset 0 (R158). -/
  | zeroOffset (hc : s.ctl = .moff) :
    VisitTo s (raise .corruptStream { afterRead 13 s with rem := matchLength (rawLengthOf s.rem) })
  /-- Another offset (R155). -/
  | offset (off : BitVec 13) (hc : s.ctl = .moff) :
    VisitTo s { afterRead 13 s with
      rem := matchLength (rawLengthOf s.rem)
      prehist := s.prehist || beyondHistory off s.fill
      src := matchSource s.wptr off
      ctl := .copy }
  /-- One byte of a copy (R156). -/
  | copied (hc : s.ctl = .copy) :
    VisitTo s { emit (winRead s s.src) s with
      src := s.src + 1, rem := s.rem - 1, ctl := if s.rem = 1 then .tok else .copy }

/-- A visit answers one of the next states listed, or refuses the launch at the header (R197). -/
theorem coreStep_cases (s : State) : (∃ t, coreStep s = .next t ∧ VisitTo s t) ∨
    (s.ctl = .hdr ∧ 8 ≤ s.inLen.toNat ∧ s.outCapacity < (readHeader s).1.toNat ∧
      coreStep s = .refused .outputMemoryTooSmall) := by
  cases hc : s.ctl
  case idle => exact .inl ⟨_, coreStep_idle hc, .wait hc⟩
  case hdr =>
    rw [coreStep_hdr hc]
    obtain ⟨hlen, hv⟩ | ⟨hlen, hcap, hv⟩ | ⟨hlen, hcap, hv⟩ := headerVisit_cases s <;> rw [hv]
    · exact .inl ⟨_, rfl, .malformed hc hlen⟩
    · exact .inr ⟨rfl, hlen, hcap, rfl⟩
    · exact .inl ⟨_, rfl, .header hc hlen hcap⟩
  case tok =>
    by_cases hle : s.declSize ≤ s.outCount
    · exact .inl ⟨_, coreStep_tok_of_le hc hle, .full hc (BitVec.le_def.1 hle)⟩
    · refine .inl ⟨_, coreStep_tok hc hle, .flag _ hc (Nat.lt_of_not_le fun h => hle (BitVec.le_def.2 h)) ?_⟩
      split
      · exact .inl rfl
      · exact .inr rfl
  case lit => exact .inl ⟨_, coreStep_lit hc, .literal _ hc⟩
  case mlen =>
    rw [coreStep_mlen hc]
    split
    · exact .inl ⟨_, rfl, .sentinel hc⟩
    · next hraw => exact .inl ⟨_, rfl, .length _ hc hraw⟩
  case moff =>
    refine .inl ⟨_, coreStep_moff hc, ?_⟩
    unfold applyOffset
    split
    · exact .zeroOffset hc
    · have h := VisitTo.offset ((readValue 13 s).setWidth 13) hc
      rwa [← afterRead_prehist 13 s, ← afterRead_fill 13 s, ← afterRead_wptr 13 s] at h
  case copy =>
    refine .inl ⟨_, coreStep_copy hc, ?_⟩
    rw [copyVisit_eq, hc]
    exact .copied hc

/-- A visit that answers a next state goes one of the ways listed. -/
theorem VisitTo.of_coreStep {s t : State} (h : coreStep s = .next t) : VisitTo s t := by
  obtain ⟨u, hu, hv⟩ | ⟨-, -, -, hr⟩ := coreStep_cases s
  · rw [hu] at h
    cases h
    exact hv
  · rw [hr] at h
    cases h

/-- Only the header parse can refuse to go on. -/
theorem coreStep_next_of_ne_hdr {s : State} (h : s.ctl ≠ .hdr) : ∃ t, coreStep s = .next t :=
  (coreStep_cases s).elim (fun ⟨t, ht, _⟩ => ⟨t, ht⟩) fun ⟨hc, _⟩ => absurd hc h

/-- Settles O24: exec answers a next state for each token, and the cases of a visit are those of `coreStep_cases`. -/
theorem noTokenStops : Obligations.NoTokenStops := by
  refine ⟨exec_next, fun s s0 hcore => ?_⟩
  rw [step_of_core hcore]
  exact (coreStep_cases s0).imp (fun ⟨t, ht, _⟩ => ⟨t, ht⟩) id

/-! ### The visit that completes a token -/

/-- In a stage of decoding, the visit reads that stage's field, unless it finds the size reached (R43, R107). -/
theorem coreVisit_of_stage {s : State} {stage : Stage} (h : stageOf s = some stage)
    (hbudget : s.ctl = .tok → s.outCount.toNat < s.declSize.toNat) : coreVisit s = fetchField stage s := by
  unfold stageOf at h
  unfold coreVisit
  cases hc : s.ctl <;> rw [hc] at h <;> cases h
  case tok => exact if_neg fun hle => Nat.not_le.2 (hbudget hc) (BitVec.le_def.1 hle)
  all_goals rfl

/-- Settles O25: the field's visit hands over to exec when the field completes a token. -/
theorem stepRunsTheDecodedToken : Obligations.StepRunsTheDecodedToken := by
  intro s s0 s1 stage v i hcore hstage hbudget hread hfield
  have hfetch : fetchField stage s0 = .run i := by
    unfold fetchField
    rw [hread]
    simp only [hfield]
  rw [step_of_core hcore, coreStep, coreVisit_of_stage hstage hbudget, hfetch]

/-- Settles O33: an IDLE visit leaves the state, so any number of them does. -/
theorem idleWaits : Obligations.IdleWaits := by
  intro s hq hc k
  induction k with
  | zero => exact runs_zero s
  | succ k ih => rw [runs_succ_of_next ((step_of_quiet hq).trans (coreStep_idle hc)), ih]

end Sys2Proof.Machine

/-! ## The host's side: the register port (R47 to R55), START (R180 to R182), the two memories (R85 to R89, R243, R248)
and whose turn it is (R52, R79)

`hostAction_cases` says once what a host action can do: hardware reset, a START from IDLE, or a change of the host's own
fields, which `HostFrame` lists. -/

namespace Sys2Proof.Machine

/-! ### Writes to a register -/

/-- An aligned word write is taken (R54). -/
theorem hostAction_regWrite_word {offset : Nat} (h : offset % 4 = 0) (v : Word) (s : State) :
    hostAction (.regWrite offset .word v) s = .next (writeReg offset v s) :=
  if_pos (alignedWord_eq_true.2 ⟨h, rfl⟩)

/-- A write to CTRL with bit 0 set starts a run in IDLE (R48, R180). -/
theorem writeCtrl_start {v : Word} {s : State} (hc : s.ctl = .idle) (hv : v.getLsbD 0 = true) :
    writeCtrl v s = start { s with ie := v.getLsbD 1 } := by
  unfold writeCtrl
  exact if_pos (by rw [hv, busy_eq_false.2 hc]; rfl)

/-- Otherwise it sets IE only (R48, R182). -/
theorem writeCtrl_no_start {v : Word} {s : State} (h : s.ctl ≠ .idle ∨ v.getLsbD 0 = false) :
    writeCtrl v s = { s with ie := v.getLsbD 1 } := by
  unfold writeCtrl
  rcases h with hbusy | h0
  · exact if_neg (by rw [busy_eq_true.2 hbusy]; simp)
  · exact if_neg (by rw [h0]; simp)

theorem writeReg_ctrl (v : Word) (s : State) : writeReg 0x00 v s = writeCtrl v s := rfl

theorem writeReg_status (v : Word) (s : State) :
    writeReg 0x04 v s = { s with done := if v.getLsbD 1 = true then false else s.done } := by
  show writeStatus v s = _
  unfold writeStatus
  split <;> rfl

theorem writeReg_inLen (v : Word) (s : State) :
    writeReg 0x08 v s = { s with inLen := if s.ctl = .idle then v else s.inLen } := by
  show writeInLen v s = _
  unfold writeInLen
  by_cases hc : s.ctl = .idle
  · rw [if_neg (by simp [busy_eq_false.2 hc]), if_pos hc]
  · rw [if_pos (busy_eq_true.2 hc), if_neg hc]

/-- Every other register ignores a write (R51 to R53). -/
theorem writeReg_of_ne {offset : Nat} (h0 : offset ≠ 0x00) (h4 : offset ≠ 0x04) (h8 : offset ≠ 0x08) (v : Word)
    (s : State) : writeReg offset v s = s := by
  unfold writeReg
  split
  · exact absurd rfl h0
  · exact absurd rfl h4
  · exact absurd rfl h8
  · rfl

/-- Settles O37: the write goes to CTRL and starts nothing. -/
theorem ctrlWriteWithoutStartSetsOnlyIe : Obligations.CtrlWriteWithoutStartSetsOnlyIe := by
  intro s v h
  rw [hostAction_regWrite_word (by decide), writeReg_ctrl, writeCtrl_no_start h]

/-- Settles O38: STATUS, IN_LEN, and the registers that ignore the write. -/
theorem otherRegisterWrites : Obligations.OtherRegisterWrites := by
  intro s v offset haligned h0
  rw [hostAction_regWrite_word haligned]
  by_cases h4 : offset = 0x04
  · subst h4
    simp [writeReg_status]
  by_cases h8 : offset = 0x08
  · subst h8
    simp [writeReg_inLen]
  simp [writeReg_of_ne h0 h4 h8, h4, h8]

/-! ### START (R180, R181) -/

/-- The host's write that starts a run (R180). -/
theorem hostAction_start {v : Word} {s : State} (hc : s.ctl = .idle) (hv : v.getLsbD 0 = true) :
    hostAction (.regWrite 0x00 .word v) s = .next (start { s with ie := v.getLsbD 1 }) := by
  rw [hostAction_regWrite_word (by decide), writeReg_ctrl, writeCtrl_start hc hv]

/-- Settles O35: the fields of `start`, which forgets the window cells and the record of input writes. -/
theorem startInitialisesTheRun : Obligations.StartInitialisesTheRun := by
  intro s v hc hv
  refine ⟨_, hostAction_start hc hv, rfl, rfl, fun _ => rfl, rfl, fun i => ?_, fun _ => rfl⟩
  rw [inRead_of_clean (start_inDirty _)]
  rfl

/-- Settles O36: `start` keeps only the fields in which the two states agree. -/
theorem nothingOfAnEarlierRunSurvivesStart : Obligations.NothingOfAnEarlierRunSurvivesStart := by
  intro s s' v hc hc' hv hlen hinp hout hinbox hcap hdraws hreg hdata
  rw [hostAction_start hc hv, hostAction_start hc' hv]
  simp only [start, hlen, hinp, hout, hinbox, hcap, hdraws, hreg, hdata]

/-! ### Reads of a register -/

/-- Two fields side by side, as a number. -/
theorem toNat_append_eq_add {m n : Nat} (x : BitVec m) (y : BitVec n) :
    (x ++ y).toNat = x.toNat * 2 ^ n + y.toNat := by
  rw [BitVec.toNat_append, ← Nat.shiftLeft_add_eq_or_of_lt y.isLt, Nat.shiftLeft_eq]

theorem dbgCtlWord_toNat (s : State) :
    (dbgCtlWord s).toNat = s.cnt.toNat + 2 ^ 8 * s.rem.toNat + 2 ^ 16 * (ctlCode s.ctl).toNat := by
  simp only [dbgCtlWord, toNat_append_eq_add, BitVec.toNat_ofNat]
  omega

theorem dbgWinWord_toNat (s : State) : (dbgWinWord s).toNat = s.wptr.toNat + 2 ^ 16 * s.src.toNat := by
  simp only [dbgWinWord, toNat_append_eq_add, BitVec.toNat_ofNat]
  omega

theorem dbgFillWord_toNat (s : State) : (dbgFillWord s).toNat = s.fill.toNat := by
  have := s.fill.isLt
  simp only [dbgFillWord, BitVec.toNat_setWidth]
  omega

/-- A bit of a word, by division. -/
theorem getLsbD_eq_of_div_mod {m : Nat} {w : BitVec m} {i : Nat} {b : Bool} (h : w.toNat / 2 ^ i % 2 = b.toNat) :
    w.getLsbD i = b := by
  rw [← BitVec.testBit_toNat, Nat.testBit_eq_decide_div_mod_eq, h]
  cases b <;> rfl

/-- CTRL as a number (R48). -/
theorem ctrlWord_toNat (s : State) : (ctrlWord s).toNat = 2 * s.ie.toNat := by
  simp only [ctrlWord, toNat_append_eq_add, BitVec.toNat_ofNat, BitVec.toNat_ofBool]
  omega

/-- CTRL shows IE at bit 1 and nothing else (R48). -/
theorem getLsbD_ctrlWord (s : State) (i : Nat) : (ctrlWord s).getLsbD i = (decide (i = 1) && s.ie) := by
  have hword := ctrlWord_toNat s
  have hbit := Bool.toNat_le s.ie
  match i with
  | 0 => exact getLsbD_eq_of_div_mod (by rw [hword, Nat.pow_zero, Nat.div_one, Nat.mul_mod_right]; rfl)
  | 1 => exact getLsbD_eq_of_div_mod (by simp only [decide_true, Bool.true_and]; omega)
  | i + 2 => exact getLsbD_of_lt_two_pow (m := 2) (by omega) (by omega)

/-- STATUS as a number, each field at its place (R49). -/
theorem statusWord_toNat (s : State) : (statusWord s).toNat = (busy s).toNat + 2 * s.done.toNat +
    4 * (errCode s.err).toNat + 32 * s.uflow.toNat + 64 * s.sentinel.toNat + 128 * s.trunc.toNat +
    256 * s.prehist.toNat + 512 * s.resultValid.toNat := by
  simp only [statusWord, toNat_append_eq_add, BitVec.toNat_ofNat, BitVec.toNat_ofBool]
  omega

/-- From 0x2C on no register is left (R53). -/
theorem regValue_of_ge {offset : Nat} (h : 0x2C ≤ offset) (s : State) : regValue s offset = 0 := by
  unfold regValue
  split
  case h_12 => rfl
  all_goals exact absurd h (by decide)

/-- Settles O40: each register's word, the packed ones as numbers. -/
theorem registerReads : Obligations.RegisterReads := by
  refine ⟨fun s offset haligned => if_pos (alignedWord_eq_true.2 ⟨haligned, rfl⟩), fun s => ?_,
    rfl, rfl, rfl, rfl, rfl, rfl, rfl⟩
  exact ⟨getLsbD_ctrlWord s, rfl, rfl, rfl, rfl, rfl, rfl, dbgCtlWord_toNat s, dbgWinWord_toNat s, dbgFillWord_toNat s,
    fun _ h => regValue_of_ge h s⟩

/-- Settles O39: the digits of the number that STATUS is. -/
theorem statusWordFields : Obligations.StatusWordFields := by
  intro s w
  have hw : w.toNat = _ := statusWord_toNat s
  have hbusy := Bool.toNat_le (busy s)
  have hdone := Bool.toNat_le s.done
  have herr := (errCode s.err).isLt
  have huflow := Bool.toNat_le s.uflow
  have hsentinel := Bool.toNat_le s.sentinel
  have htrunc := Bool.toNat_le s.trunc
  have hprehist := Bool.toNat_le s.prehist
  have hvalid := Bool.toNat_le s.resultValid
  have hbit0 : w.getLsbD 0 = busy s := getLsbD_eq_of_div_mod (by omega)
  have hcode : w.extractLsb' 2 3 = errCode s.err :=
    BitVec.eq_of_toNat_eq (by rw [BitVec.extractLsb'_toNat, Nat.shiftRight_eq_div_pow]; omega)
  refine ⟨by rw [hbit0, busy_eq_true], getLsbD_eq_of_div_mod ?_, hcode, rfl, rfl, rfl, rfl,
    getLsbD_eq_of_div_mod ?_, getLsbD_eq_of_div_mod ?_, getLsbD_eq_of_div_mod ?_, getLsbD_eq_of_div_mod ?_,
    getLsbD_eq_of_div_mod ?_, fun i hi => getLsbD_of_lt_two_pow (m := 10) ?_ hi⟩ <;> omega

/-! ### The host's memories (R85, R86, R89, R243, R248) -/

theorem inByte_hostWriteInput (i : Word) (b : Byte) (s : State) (k : Nat) :
    inByte (hostWriteInput i b s) k = if k = i.toNat then b else inByte s k := by
  rw [hostWriteInput_frame]
  simp only [inByte, Memory.read?_write]
  split <;> rfl

/-- In IDLE the model keeps no record of an input write (R86; log 6). -/
theorem hostWriteInput_idle {s : State} (hc : s.ctl = .idle) (i : Word) (b : Byte) :
    (hostWriteInput i b s).inDirty = s.inDirty := by
  unfold hostWriteInput
  rw [busy_eq_false.2 hc]
  rfl

/-- During a run the index written is on the model's record, and no other is new (R89; log 6). -/
theorem contains_inDirty_hostWriteInput {s : State} (hc : s.ctl ≠ .idle) (i : Word) (b : Byte) (k : Nat) :
    (hostWriteInput i b s).inDirty.contains k = (k == i.toNat || s.inDirty.contains k) := by
  unfold hostWriteInput
  rw [busy_eq_true.2 hc, Bool.true_and]
  cases h : s.inDirty.contains i.toNat
  · exact List.contains_cons
  · by_cases hk : k = i.toNat
    · rw [hk, beq_self_eq_true, Bool.true_or]
      exact h
    · rw [beq_eq_false_iff_ne.2 hk, Bool.false_or]
      rfl

/-- An input read by its record (R71, R89). -/
theorem inRead_of_contains {i : Word} {s : State} (h : s.inDirty.contains i.toNat = true) :
    inRead i s = (Config.drawByte s.draws, { s with draws := s.draws + 1 }) := if_pos h

theorem inRead_fst_congr {i : Word} {s t : State} (hdirty : t.inDirty.contains i.toNat = s.inDirty.contains i.toNat)
    (hdraws : t.draws = s.draws) (hbyte : inByte t i.toNat = inByte s i.toNat) : (inRead i t).1 = (inRead i s).1 := by
  simp only [inRead, hdirty, hdraws, hbyte]
  split <;> rfl

/-- Settles O44: `hostWriteInput` writes the byte, and puts its index on the record while BUSY only. -/
theorem inputWriteDuringARunMakesItsReadsDraws : Obligations.InputWriteDuringARunMakesItsReadsDraws := by
  intro s i b
  have hframe := hostWriteInput_frame i b s
  refine ⟨_, rfl, inByte_hostWriteInput i b s, fun hc => ⟨?_, fun j => ?_⟩, fun hc => ⟨?_, ?_, fun j hj => ?_⟩⟩
  · rw [hostWriteInput_idle hc] at hframe
    rw [hframe]
  · rw [inRead_of_clean (start_inDirty _)]
    rfl
  · rw [hframe]
  · exact inRead_of_contains (by rw [contains_inDirty_hostWriteInput hc]; simp)
  · have hne : j.toNat ≠ i.toNat := fun h => hj (BitVec.eq_of_toNat_eq h)
    refine inRead_fst_congr ?_ (by rw [hframe]) ?_
    · rw [contains_inDirty_hostWriteInput hc, beq_eq_false_iff_ne.2 hne, Bool.false_or]
    · rw [inByte_hostWriteInput, if_neg hne]

/-- Settles O46: the race while BUSY, and what the two actions write in IDLE. -/
theorem outputMemoryRaceStops : Obligations.OutputMemoryRaceStops := by
  intro s i b size
  refine ⟨fun hc => ⟨if_pos (busy_eq_true.2 hc), if_pos (busy_eq_true.2 hc)⟩, fun hc => ?_⟩
  have hidle : ¬ busy s = true := fun h => busy_eq_true.1 h hc
  exact ⟨⟨_, if_neg hidle, outByte_outWrite i b s, rfl⟩, if_neg hidle⟩

/-! ### Everything a host action can do (R182, R197) -/

/-- `t` is `s` after a host action that is neither a hardware reset nor a START. -/
structure HostFrame (s t : State) : Prop where
  frame : t = { s with
    ie := t.ie, done := t.done, inLen := t.inLen, inp := t.inp, out := t.out, inDirty := t.inDirty
    outCapacity := t.outCapacity, draws := t.draws, regData := t.regData, outData := t.outData }
  done : t.done = true → s.done = true
  busy : s.ctl ≠ .idle → t.inLen = s.inLen ∧ t.out = s.out ∧ t.outCapacity = s.outCapacity
  inp : t.inp = s.inp ∨ ∃ i b, t.inp = Memory.write s.inp i b
  out : t.out = s.out ∨ ∃ i b, t.out = Memory.write s.out i b

/-- A change of IE and of the host's own records is one. -/
theorem HostFrame.records (s : State) (ie : Bool) (draws : Nat) (regData : Word) (outData : Byte) :
    HostFrame s { s with ie := ie, draws := draws, regData := regData, outData := outData } :=
  ⟨rfl, id, fun _ => ⟨rfl, rfl, rfl⟩, .inl rfl, .inl rfl⟩

theorem HostFrame.refl (s : State) : HostFrame s s := .records s s.ie s.draws s.regData s.outData

/-- A register write that starts no run changes the host's own fields only (R48 to R53). -/
theorem writeReg_cases (offset : Nat) (v : Word) (s : State) :
    (s.ctl = .idle ∧ ∃ ie, writeReg offset v s = start { s with ie := ie }) ∨ HostFrame s (writeReg offset v s) := by
  by_cases h0 : offset = 0x00
  · subst h0
    rw [writeReg_ctrl]
    by_cases hstart : s.ctl = .idle ∧ v.getLsbD 0 = true
    · exact .inl ⟨hstart.1, _, writeCtrl_start hstart.1 hstart.2⟩
    · rw [writeCtrl_no_start ((not_and_or.1 hstart).imp_right Bool.eq_false_iff.2)]
      exact .inr (.records s _ _ _ _)
  by_cases h4 : offset = 0x04
  · subst h4
    rw [writeReg_status]
    refine .inr ⟨rfl, fun hdone => ?_, fun _ => ⟨rfl, rfl, rfl⟩, .inl rfl, .inl rfl⟩
    simp only at hdone
    split at hdone
    · cases hdone
    · exact hdone
  by_cases h8 : offset = 0x08
  · subst h8
    rw [writeReg_inLen]
    exact .inr ⟨rfl, id, fun hc => ⟨if_neg hc, rfl, rfl⟩, .inl rfl, .inl rfl⟩
  · rw [writeReg_of_ne h0 h4 h8]
    exact .inr (.refl s)

/-- What a host action that answers a next state can do. -/
theorem hostAction_cases {e : HostEvent} {s t : State} (h : hostAction e s = .next t) :
    (e = .hwReset ∧ t = hardwareReset s) ∨ (s.ctl = .idle ∧ ∃ ie, t = start { s with ie := ie }) ∨ HostFrame s t := by
  cases e with
  | coreVisit =>
    cases h
    exact .inr (.inr (.refl s))
  | regWrite offset width v =>
    by_cases ha : alignedWord offset width = true
    · obtain ⟨hoff, rfl⟩ := alignedWord_eq_true.1 ha
      rw [hostAction_regWrite_word hoff] at h
      cases h
      exact .inr (writeReg_cases offset v s)
    · rw [hostAction_regWrite_of_not_aligned ha] at h
      cases h
  | regRead offset width =>
    by_cases ha : alignedWord offset width = true
    · cases (if_pos ha).symm.trans h
      exact .inr (.inr (.records s _ _ _ _))
    · rw [hostAction_regRead_of_not_aligned ha] at h
      cases h
  | inWrite i b =>
    cases h
    have hframe := hostWriteInput_frame i b s
    rw [hframe]
    exact .inr (.inr ⟨rfl, id, fun _ => ⟨rfl, rfl, rfl⟩, .inr ⟨_, _, rfl⟩, .inl rfl⟩)
  | outWrite i b =>
    by_cases hb : busy s = true
    · cases (if_pos hb).symm.trans h
    · cases (if_neg hb).symm.trans h
      exact .inr (.inr ⟨rfl, id, fun hc => absurd (busy_eq_true.2 hc) hb, .inl rfl, .inr ⟨_, _, rfl⟩⟩)
  | outRead i =>
    cases h
    have hframe := hostReadOutput_frame i s
    rw [hframe]
    exact .inr (.inr (.records s _ _ _ _))
  | provideOut size =>
    by_cases hb : busy s = true
    · cases (if_pos hb).symm.trans h
    · cases (if_neg hb).symm.trans h
      exact .inr (.inr ⟨rfl, id, fun hc => absurd (busy_eq_true.2 hc) hb, .inl rfl, .inl rfl⟩)
  | hwReset =>
    cases h
    exact .inl ⟨rfl, rfl⟩

/-- Settles O43: while BUSY a host action other than hardware reset has the host's frame, with its memory of the output
and IN_LEN left alone. -/
theorem hostCannotDisturbARun : Obligations.HostCannotDisturbARun := by
  intro e s t hbusy he h
  obtain ⟨hreset, -⟩ | ⟨hidle, -⟩ | hframe := hostAction_cases h
  · exact absurd hreset he
  · exact absurd hidle hbusy
  · obtain ⟨hlen, hout, hcap⟩ := hframe.busy hbusy
    have heq := hframe.frame
    rw [hlen, hout, hcap] at heq
    exact ⟨heq, hframe.done⟩

/-! ### Whose turn it is (R52, R79) -/

/-- Settles O57: a host action is taken off the list; a visit neither reads nor changes the list. -/
theorem stepTakesTheOldestHostAction : Obligations.StepTakesTheOldestHostAction := by
  refine ⟨fun s e rest hi he => step_of_host (nextMover_of_host hi he), fun s rest hi => ?_,
    fun s => nextMover_of_quiet⟩
  have hcore := nextMover_of_coreVisit hi
  have hq : Quiet { s with inbox := [] } := rfl
  have hkeep := coreStep_withHost { s with inbox := [] } [] s.outData
  have hrest := coreStep_withHost { s with inbox := [] } rest s.outData
  refine ⟨hcore, ?_⟩
  rw [step_of_core hcore, step_of_quiet hq]
  refine hrest.trans (Eq.trans ?_ (congrArg (mapNext fun t => { t with inbox := rest }) hkeep).symm)
  cases coreStep { s with inbox := [] } <;> rfl

/-! ### A host read of the output (R85) -/

/-- While BUSY the answer is the byte at START, or the one the run writes, as the draw has it (log 7). -/
theorem hostReadOutput_busy {s : State} (hc : s.ctl ≠ .idle) (i : Word) : hostReadOutput i s =
    { s with
      draws := s.draws + 1
      outData :=
        if Config.drawNew s.draws = true then
          (byteOfRun i { s with draws := s.draws + 1 }).getD (outByteOf s.outBefore i.toNat)
        else outByteOf s.outBefore i.toNat } := by
  have hb := busy_eq_true.2 hc
  unfold hostReadOutput takeReadDraw
  simp only [hb, if_true]

theorem hostReadOutput_idle {s : State} (hc : s.ctl = .idle) (i : Word) :
    hostReadOutput i s = { s with outData := outByte s i.toNat } :=
  if_neg fun hb => busy_eq_true.1 hb hc

/-- What a host read finds at an index the run has not reached: the byte a later step of the run writes, if one does
within its bound, or the byte at START. -/
theorem byteOfRun_getD_cases {s : State} (hc : s.ctl ≠ .idle) {i : Word} (hi : s.outCount.toNat ≤ i.toNat)
    (d before : Byte) :
    (∃ k u, DuringRun k { s with outData := d } u ∧ i.toNat < u.outCount.toNat ∧
      (byteOfRun i s).getD before = outByte u i.toNat) ∨
    ((byteOfRun i s).getD before = before ∧
      ∀ k u, k ≤ 20 * (2 ^ 32 - 1) + 4 + s.inbox.length → DuringRun k { s with outData := d } u →
        u.outCount.toNat ≤ i.toNat) := by
  have hnot : ¬ i < s.outCount := fun h => Nat.not_lt.2 hi (BitVec.lt_def.1 h)
  have hlook : byteOfRun i s = byteToCome (stepsAhead s) i s := if_neg hnot
  rw [hlook]
  have hcases := byteToCome_cases i (stepsAhead s) { s with outData := d } s.outData hc hi
  obtain ⟨b, k, u, hb, -, hrun, hlt, hu⟩ | ⟨hnone, hbound⟩ := hcases
  · refine .inl ⟨k, u, hrun, hlt, ?_⟩
    rw [show byteToCome (stepsAhead s) i s = some b from hb, hu]
    rfl
  · refine .inr ⟨?_, fun k u hk => hbound k u hk⟩
    rw [show byteToCome (stepsAhead s) i s = none from hnone]
    rfl

/-- Settles O45: in IDLE and while BUSY, by the draw, and for an index already written or not. -/
theorem outputReadReturnsOldOrNew : Obligations.OutputReadReturnsOldOrNew := by
  intro s i
  refine ⟨_, rfl, hostReadOutput_frame i s, fun hc => ?_, fun hc hdraw => ?_, fun hc hdraw => ?_⟩
  · rw [hostReadOutput_idle hc]
  · rw [hostReadOutput_busy hc]
    simp [hdraw]
  · rw [hostReadOutput_busy hc, if_pos hdraw]
    refine ⟨fun hlt => ?_, fun hle => ?_⟩
    · exact congrArg (Option.getD · _) (if_pos (BitVec.lt_def.2 hlt))
    · exact byteOfRun_getD_cases (s := { s with draws := s.draws + 1 }) hc hle _ _

end Sys2Proof.Machine

/-! ## The invariants of a run (R33 to R45, R190, R217), of the memories (log 5) and of the output at START (R85)

A step is a host action or a visit. For a visit each invariant is shown along `VisitTo`, from what a read, an emission
and the two ends of a run keep of it. -/

namespace Sys2Proof.Machine

/-! ### What the parts of a visit keep of the run invariant -/

/-- A read past the input counts an underflow, and only then (R45, R46). -/
theorem uflow_count_afterRead {n : BitVec 5} (hn : n.toNat ≤ 16) {s : State}
    (h : s.uflow = true ↔ s.uflowCount ≠ 0) :
    (afterRead n s).uflow = true ↔ (afterRead n s).uflowCount ≠ 0 := by
  obtain ⟨r, -, -, -, hcount, huflow⟩ := readCounts_afterRead hn s
  rw [huflow, Bool.or_eq_true, decide_eq_true_eq, h, Ne, Ne, ← BitVec.toNat_inj, ← BitVec.toNat_inj, hcount]
  have hzero : (0 : Word).toNat = 0 := rfl
  have := s.uflowCount.isLt
  omega

/-- A read keeps the run invariant (R33, R34). -/
theorem RunInv.afterRead {s : State} (h : RunInv s) {n : BitVec 5} (hn : n.toNat ≤ 16) : RunInv (afterRead n s) := by
  obtain ⟨r, hr⟩ := readCounts_afterRead hn s
  have hcursor := hr.cursor
  unfold inputLeft at hcursor
  have huflow := uflow_count_afterRead hn h.uflow_count
  have hreader := h.reader.afterRead hn
  have hle : s.ctl ≠ .idle → (Machine.afterRead n s).cursor.toNat ≤ s.inLen.toNat := fun hc => by
    have := h.cursor_le hc
    omega
  have hge : s.ctl ≠ .idle → s.ctl ≠ .hdr → 8 ≤ (Machine.afterRead n s).cursor.toNat := fun hc hh => by
    have := h.cursor_ge hc hh
    omega
  have hframe := afterRead_frame n s
  unfold ReaderFrame at hframe
  generalize Machine.afterRead n s = t at hframe hreader hle hge huflow
  rw [hframe]
  exact { h with
    reader := ⟨hreader.cnt_le, hreader.acc_lt⟩
    cursor_le := hle
    cursor_ge := hge
    uflow_count := huflow }

/-- A run past its header and not ended. -/
def PastHeader (s : State) : Prop := s.ctl ≠ .idle ∧ s.ctl ≠ .hdr

theorem pastHeader_of_ctl {s : State} {c : Ctl} (hc : s.ctl = c) (h : c ≠ .idle ∧ c ≠ .hdr) : PastHeader s := by
  rwa [PastHeader, hc]

/-- STATE and REM may be `c` and `r` in a run past its header (R42, R43, R151). -/
structure ControlOk (s : State) (c : Ctl) (r : BitVec 5) : Prop where
  ne_hdr : c ≠ .hdr
  rem_le : r.toNat ≤ 17
  rem_moff : c = .moff → 3 ≤ r.toNat
  rem_copy : c = .copy → 1 ≤ r.toNat
  budget : c = .lit ∨ c = .mlen ∨ c = .moff → s.outCount.toNat < s.declSize.toNat

/-- At a token boundary only REM is bounded. -/
theorem controlOk_tok {s : State} {r : BitVec 5} (h : r.toNat ≤ 17) : ControlOk s .tok r :=
  ⟨nofun, h, nofun, nofun, by simp⟩

/-- In a copy there is a byte left. -/
theorem controlOk_copy {s : State} {r : BitVec 5} (h : r.toNat ≤ 17) (hone : 1 ≤ r.toNat) : ControlOk s .copy r :=
  ⟨nofun, h, nofun, fun _ => hone, by simp⟩

/-- The control registers of a run may move on within their bounds; SRC and PREHIST are free. -/
theorem RunInv.goTo {s : State} (h : RunInv s) (hpast : PastHeader s) {c : Ctl} {r : BitVec 5} (hok : ControlOk s c r)
    (x : WinIx) (p : Bool) : RunInv { s with src := x, rem := r, ctl := c, prehist := p } :=
  { h with
    reader := ⟨h.reader.cnt_le, h.reader.acc_lt⟩
    cursor_le := fun _ => h.cursor_le hpast.1
    cursor_ge := fun _ _ => h.cursor_ge hpast.1 hpast.2
    rem_le := hok.rem_le
    rem_moff := hok.rem_moff
    rem_copy := hok.rem_copy
    budget := hok.budget
    fresh := fun heq => absurd heq hok.ne_hdr
    running := fun _ => h.running hpast.1 }

/-- An emission writes the next cell of the window, so the cells below FILL stay the written ones (R38, R150). -/
theorem win_written_emit {s : State} (hwptr : s.fill.toNat < 8192 → s.wptr.toNat = s.fill.toNat)
    (h : ∀ p : WinIx, (Memory.read? s.win p.toNat).isSome = decide (p.toNat < s.fill.toNat)) (b : Byte) (p : WinIx) :
    (Memory.read? (emit b s).win p.toNat).isSome = decide (p.toNat < (emit b s).fill.toNat) := by
  have hp := p.isLt
  rw [emit_win, emit_fill_toNat, Memory.read?_write]
  split
  · next heq =>
    have : p.toNat < min (s.fill.toNat + 1) 8192 := by omega
    simp [this]
  · next hne =>
    rw [h p]
    exact decide_eq_decide.2 (by omega)

/-- An emission at a token boundary or in a copy keeps the run invariant (R150). -/
theorem RunInv.emit {s : State} (h : RunInv s) (hc : s.ctl = .tok ∨ s.ctl = .copy) (b : Byte) :
    RunInv (emit b s) := by
  obtain ⟨hbusy, hhdr⟩ : PastHeader s := hc.elim (pastHeader_of_ctl · (by decide)) (pastHeader_of_ctl · (by decide))
  have hfill := h.fill_le
  have hwptr := h.fill_wptr
  have hout := h.out_le
  obtain ⟨hdone, herr, hvalid, hsentinel⟩ := h.running hbusy
  exact {
    reader := ⟨by simpa using h.reader.cnt_le, by simpa using h.reader.acc_lt⟩
    cursor_le := by simpa using h.cursor_le
    cursor_ge := by simpa using h.cursor_ge
    fill_le := by rw [emit_fill_toNat]; omega
    fill_wptr := by rw [emit_fill_toNat, emit_wptr_toNat]; omega
    win_written := win_written_emit hwptr h.win_written b
    out_le := by rw [emit_outCount_toNat, emit_declSize]; split <;> omega
    rem_le := by simpa using h.rem_le
    rem_moff := by simpa using h.rem_moff
    rem_copy := by simpa using h.rem_copy
    budget := fun hl => by rw [emit_ctl] at hl; rcases hc with hc | hc <;> simp [hc] at hl
    fresh := fun heq => absurd ((emit_ctl b s).symm.trans heq) hhdr
    running := fun _ => by simp [hdone, herr, hvalid, hsentinel]
    trunc_full := fun ht => by
      rw [emit_trunc, Bool.or_eq_true, Bool.not_eq_true', decide_eq_false_iff_not] at ht
      have hfull : ¬ s.outCount < s.declSize := by
        rcases ht with ht | ht
        · rw [h.trunc_full ht]; exact BitVec.lt_irrefl _
        · exact ht
      rw [emit_outCount, if_neg hfull, emit_declSize]
      rw [BitVec.lt_def] at hfull
      exact BitVec.eq_of_toNat_eq (by omega)
    sentinel_short := fun hs => by simp [hsentinel] at hs
    err_no_result := by simpa using h.err_no_result
    result_complete := fun hv => by simp [hvalid] at hv
    done_reports := by simpa using h.done_reports
    no_violation := by simpa using h.no_violation
    uflow_count := by simpa using h.uflow_count }

/-- The normal end keeps the run invariant, with SENTINEL or with the declared size reached (R190, R191). -/
theorem RunInv.finish {s : State} (h : RunInv s) (hbusy : s.ctl ≠ .idle) {b : Bool}
    (hshort : b = true → s.outCount.toNat < s.declSize.toNat) (hcomplete : b = true ∨ s.outCount = s.declSize) :
    RunInv (finish { s with sentinel := b }) := by
  obtain ⟨hdone, herr, hvalid, hsentinel⟩ := h.running hbusy
  exact { h with
    reader := ⟨h.reader.cnt_le, h.reader.acc_lt⟩
    cursor_le := fun hc => absurd rfl hc
    cursor_ge := fun hc => absurd rfl hc
    rem_moff := nofun
    rem_copy := nofun
    budget := by rintro (h | h | h) <;> cases h
    fresh := nofun
    running := fun hc => absurd rfl hc
    sentinel_short := hshort
    err_no_result := fun he => by rw [finish_err, herr] at he; cases he
    result_complete := fun _ => hcomplete
    done_reports := fun _ => .inl rfl }

/-- A fatal error other than PROTOCOL_VIOLATION keeps it (R214). -/
theorem RunInv.raise {s : State} (h : RunInv s) {e : FatalError} (he : e ≠ .protocolViolation) :
    RunInv (raise e s) :=
  { h with
    reader := ⟨h.reader.cnt_le, h.reader.acc_lt⟩
    cursor_le := fun hc => absurd rfl hc
    cursor_ge := fun hc => absurd rfl hc
    rem_moff := nofun
    rem_copy := nofun
    budget := by rintro (h | h | h) <;> cases h
    fresh := nofun
    running := fun hc => absurd rfl hc
    err_no_result := fun _ => rfl
    result_complete := nofun
    done_reports := fun _ => .inr rfl
    no_violation := fun heq => he (Option.some.inj heq) }

/-- The header parse keeps it, whatever size it reads (R184). -/
theorem RunInv.header {s : State} (h : RunInv s) (hc : s.ctl = .hdr) (hlen : 8 ≤ s.inLen.toNat) (size : Word)
    (d : Nat) : RunInv { s with declSize := size, cursor := 8, ctl := .tok, draws := d } := by
  obtain ⟨hcount, -, -, htrunc⟩ := h.fresh hc
  obtain ⟨hdone, herr, hvalid, hsentinel⟩ := h.running (by rw [hc]; decide)
  exact { h with
    reader := ⟨h.reader.cnt_le, h.reader.acc_lt⟩
    cursor_le := fun _ => hlen
    cursor_ge := fun _ _ => Nat.le_refl 8
    out_le := by simp [hcount]
    rem_moff := nofun
    rem_copy := nofun
    budget := by rintro (h | h | h) <;> cases h
    fresh := nofun
    running := fun _ => ⟨hdone, herr, hvalid, hsentinel⟩
    trunc_full := fun ht => absurd (htrunc.symm.trans ht) Bool.false_ne_true
    sentinel_short := fun hs => absurd (hsentinel.symm.trans hs) Bool.false_ne_true
    result_complete := fun hv => absurd (hvalid.symm.trans hv) Bool.false_ne_true }

/-- A length is at most 17, as raw_length 15 is the sentinel (R42, R105). -/
theorem matchLength_le {raw : BitVec 4} (hraw : raw ≠ 15) : (matchLength raw).toNat ≤ 17 := by
  have hlt := raw.isLt
  have hne : raw.toNat ≠ 15 := fun h => hraw (BitVec.eq_of_toNat_eq h)
  rw [matchLength_toNat]
  omega

/-- STATE takes no part in an emission. -/
theorem emit_withCtl (b : Byte) (s : State) (c : Ctl) : emit b { s with ctl := c } = { emit b s with ctl := c } := by
  refine (emit_withCopy b s s.src s.rem c).trans ?_
  simp only [emit_src, emit_rem]

/-- A visit of the core keeps the run invariant. -/
theorem RunInv.visit {s t : State} (h : RunInv s) (hv : VisitTo s t) : RunInv t := by
  have hflag := h.afterRead (n := 1) (by decide)
  have hlength := h.afterRead (n := 4) (by decide)
  have hliteral := h.afterRead (n := 8) (by decide)
  have hoffset := h.afterRead (n := 13) (by decide)
  have hrem := h.rem_le
  cases hv with
  | wait hc => exact h
  | malformed hc hlen => exact h.raise (by decide)
  | header hc hlen hcap => exact h.header hc hlen _ _
  | full hc hle =>
    have hfull : s.outCount = s.declSize := BitVec.eq_of_toNat_eq (Nat.le_antisymm h.out_le hle)
    obtain ⟨-, -, -, hsentinel⟩ := h.running (by simp [hc])
    refine h.finish (by simp [hc]) (b := s.sentinel) (fun hs => ?_) (.inr hfull)
    exact absurd (hsentinel.symm.trans hs) Bool.false_ne_true
  | flag c hc hlt hnext =>
    have hok : ControlOk (Machine.afterRead 1 s) c (Machine.afterRead 1 s).rem := by
      obtain rfl | rfl := hnext <;> exact ⟨nofun, hflag.rem_le, nofun, nofun, fun _ => by simpa using hlt⟩
    exact hflag.goTo (pastHeader_of_ctl ((afterRead_ctl 1 s).trans hc) (by decide)) hok _ _
  | literal b hc =>
    have hmove := hliteral.goTo (pastHeader_of_ctl ((afterRead_ctl 8 s).trans hc) (by decide))
      (controlOk_tok hliteral.rem_le) (Machine.afterRead 8 s).src (Machine.afterRead 8 s).prehist
    rw [← emit_withCtl]
    exact hmove.emit (.inl rfl) b
  | sentinel hc =>
    refine hlength.finish (by simp [hc]) (fun _ => ?_) (.inl rfl)
    simpa using h.budget (.inr (.inl hc))
  | length raw hc hraw =>
    have hthree : 3 ≤ (matchLength raw).toNat := by
      rw [matchLength_toNat]
      omega
    have hok : ControlOk (Machine.afterRead 4 s) .moff (matchLength raw) :=
      ⟨nofun, matchLength_le hraw, fun _ => hthree, nofun, fun _ => by simpa using h.budget (.inr (.inl hc))⟩
    exact hlength.goTo (pastHeader_of_ctl ((afterRead_ctl 4 s).trans hc) (by decide)) hok _ _
  | zeroOffset hc =>
    rw [matchLength_rawLengthOf (h.rem_moff hc) (hrem.trans (by decide)), ← afterRead_rem 13 s]
    exact hoffset.raise (by decide)
  | offset off hc =>
    have hthree := h.rem_moff hc
    rw [matchLength_rawLengthOf hthree (hrem.trans (by decide))]
    exact hoffset.goTo (pastHeader_of_ctl ((afterRead_ctl 13 s).trans hc) (by decide))
      (controlOk_copy hrem (by omega)) _ _
  | copied hc =>
    have hone := h.rem_copy hc
    have hdown : (s.rem - 1).toNat = s.rem.toNat - 1 := by bv_omega
    have hpast : PastHeader s := pastHeader_of_ctl hc (by decide)
    rw [← emit_withCopy]
    by_cases hlast : s.rem = 1
    · rw [if_pos hlast]
      exact (h.goTo hpast (controlOk_tok (by omega)) _ s.prehist).emit (.inl rfl) _
    · have hne : s.rem.toNat ≠ 1 := fun h1 => hlast (BitVec.eq_of_toNat_eq h1)
      rw [if_neg hlast]
      exact (h.goTo hpast (controlOk_copy (by omega) (by omega)) _ s.prehist).emit (.inr rfl) _

/-! ### The run invariant (R33 to R45) -/

/-- The run invariant speaks of no field of the host's but DONE and IN_LEN. -/
theorem RunInv.host {s t : State} (h : RunInv s) (ht : HostFrame s t) : RunInv t := by
  have hlen : s.ctl ≠ .idle → s.cursor.toNat ≤ t.inLen.toNat := fun hc => (ht.busy hc).1 ▸ h.cursor_le hc
  have hdone : s.ctl ≠ .idle → t.done = false := fun hc =>
    Bool.eq_false_iff.2 fun hd => absurd ((h.running hc).1.symm.trans (ht.done hd)) Bool.false_ne_true
  have hreports : t.done = true → s.resultValid = true ∨ s.err.isSome = true := fun hd => h.done_reports (ht.done hd)
  rw [ht.frame]
  exact { h with
    reader := ⟨h.reader.cnt_le, h.reader.acc_lt⟩
    cursor_le := hlen
    running := fun hc => ⟨hdone hc, (h.running hc).2⟩
    done_reports := hreports }

/-- A run that has just begun meets it (R181). -/
theorem runInv_start (s : State) : RunInv (start s) where
  reader := ⟨Nat.zero_le _, Nat.one_pos⟩
  cursor_le _ := Nat.zero_le _
  cursor_ge _ hc := absurd rfl hc
  fill_le := Nat.zero_le _
  fill_wptr _ := rfl
  win_written _ := rfl
  out_le := Nat.le_refl _
  rem_le := Nat.zero_le _
  rem_moff := nofun
  rem_copy := nofun
  budget := by rintro (h | h | h) <;> cases h
  fresh _ := ⟨rfl, rfl, rfl, rfl⟩
  running _ := ⟨rfl, rfl, rfl, rfl⟩
  trunc_full := nofun
  sentinel_short := nofun
  err_no_result := nofun
  result_complete := nofun
  done_reports := nofun
  no_violation := nofun
  uflow_count := by simp

/-- So does a core after hardware reset, whatever the host has (R240). -/
theorem runInv_hardwareReset (s : State) : RunInv (hardwareReset s) where
  reader := ⟨Nat.zero_le _, Nat.one_pos⟩
  cursor_le hc := absurd rfl hc
  cursor_ge hc := absurd rfl hc
  fill_le := Nat.zero_le _
  fill_wptr _ := rfl
  win_written _ := rfl
  out_le := Nat.le_refl _
  rem_le := Nat.zero_le _
  rem_moff := nofun
  rem_copy := nofun
  budget := by rintro (h | h | h) <;> cases h
  fresh := nofun
  running hc := absurd rfl hc
  trunc_full := nofun
  sentinel_short := nofun
  err_no_result := nofun
  result_complete := nofun
  done_reports := nofun
  no_violation := nofun
  uflow_count := by simp [hardwareReset, State.reset]

/-- Settles O47: the reset state is the reset of itself. -/
theorem runInvariantAtReset : Obligations.RunInvariantAtReset := runInv_hardwareReset State.reset

/-! ### Every step (R8, R43) -/

/-- A property that a visit, a host action and a START keep, that holds after hardware reset, and that does not look at
the list of host actions to come, is kept by every step. -/
theorem step_keeps {P : State → Prop} (hinbox : ∀ s l, P s → P { s with inbox := l })
    (hvisit : ∀ s t, P s → coreStep s = .next t → P t) (hhost : ∀ s t, P s → HostFrame s t → P t)
    (hstart : ∀ s, P s → P (start s)) (hreset : ∀ s, P s → P (hardwareReset s)) {s t : State} (h : P s)
    (hstep : step s = .next t) : P t := by
  obtain ⟨rest, hcore⟩ | ⟨e, rest, -, hhostTurn⟩ := nextMover_cases s
  · rw [step_of_core hcore] at hstep
    exact hvisit _ _ (hinbox s rest h) hstep
  rw [step_of_host hhostTurn] at hstep
  have h := hinbox s rest h
  obtain ⟨-, rfl⟩ | ⟨-, ie, rfl⟩ | hframe := hostAction_cases hstep
  · exact hreset _ h
  · exact hstart _ (hhost _ _ h (.records _ ie _ _ _))
  · exact hhost _ _ h hframe

/-- Settles O48: visits, host actions, START and hardware reset each keep the run invariant. -/
theorem everyStepKeepsTheRunInvariant : Obligations.EveryStepKeepsTheRunInvariant := fun _ _ =>
  step_keeps (fun _ _ h => { h with reader := ⟨h.reader.cnt_le, h.reader.acc_lt⟩ })
    (fun _ _ h hv => h.visit (.of_coreStep hv)) (fun _ _ => RunInv.host) (fun s _ => runInv_start s)
    (fun s _ => runInv_hardwareReset s)

/-! ### The form of the memories (log 5) -/

/-- What a visit leaves alone of the host's side. -/
structure HostKept (s t : State) : Prop where
  inbox : t.inbox = s.inbox
  ie : t.ie = s.ie
  inp : t.inp = s.inp
  outBefore : t.outBefore = s.outBefore

theorem VisitTo.hostKept {s t : State} (hv : VisitTo s t) : HostKept s t := by
  cases hv <;> constructor <;> simp

/-- A visit writes the window and the output as one emission does, or neither. -/
theorem VisitTo.memories {s t : State} (hv : VisitTo s t) :
    (t.win = s.win ∧ t.out = s.out) ∨ ∃ b, t.win = (emit b s).win ∧ t.out = (emit b s).out := by
  cases hv with
  | literal b hc => exact .inr ⟨b, by simp, by simp [emit_out]⟩
  | copied hc => exact .inr ⟨_, rfl, rfl⟩
  | _ => exact .inl ⟨by simp, by simp⟩

/-- An emission keeps the form of the memories, the window below 8192 (R73). -/
theorem MemoryInv.emit {s : State} (h : MemoryInv s) (b : Byte) : MemoryInv (emit b s) where
  inp_wf := by simpa using h.inp_wf
  out_wf := by
    rw [emit_out]
    split
    · exact Memory.wf_write _ _ _ h.out_wf
    · exact h.out_wf
  before_wf := by simpa using h.before_wf
  win_wf := by
    rw [emit_win]
    exact Memory.wf_write _ _ _ h.win_wf
  win_range p hp := by
    have := s.wptr.isLt
    rw [emit_win, Memory.read?_write_of_ne _ _ (by omega)]
    exact h.win_range p hp

/-- The form depends on the four memories alone. -/
theorem MemoryInv.congr {s t : State} (h : MemoryInv s) (hinp : t.inp = s.inp) (hbefore : t.outBefore = s.outBefore)
    (hwin : t.win = s.win) (hout : t.out = s.out) : MemoryInv t :=
  ⟨hinp ▸ h.inp_wf, hout ▸ h.out_wf, hbefore ▸ h.before_wf, hwin ▸ h.win_wf, hwin ▸ h.win_range⟩

theorem MemoryInv.visit {s t : State} (h : MemoryInv s) (hv : VisitTo s t) : MemoryInv t := by
  obtain ⟨-, -, hinp, hbefore⟩ := hv.hostKept
  obtain ⟨hwin, hout⟩ | ⟨b, hwin, hout⟩ := hv.memories
  · exact h.congr hinp hbefore hwin hout
  · exact (h.emit b).congr (hinp.trans (emit_inp b s).symm) (hbefore.trans (emit_outBefore b s).symm) hwin hout

/-- A host write keeps the canonical form. -/
theorem MemoryInv.host {s t : State} (h : MemoryInv s) (ht : HostFrame s t) : MemoryInv t := by
  have hinp : Memory.wf t.inp = true := by
    obtain heq | ⟨i, b, heq⟩ := ht.inp <;> rw [heq]
    · exact h.inp_wf
    · exact Memory.wf_write _ _ _ h.inp_wf
  have hout : Memory.wf t.out = true := by
    obtain heq | ⟨i, b, heq⟩ := ht.out <;> rw [heq]
    · exact h.out_wf
    · exact Memory.wf_write _ _ _ h.out_wf
  rw [ht.frame]
  exact ⟨hinp, hout, h.before_wf, h.win_wf, h.win_range⟩

/-- Settles O49: the memories are empty at reset, and visits, host actions, START and hardware reset keep their form. -/
theorem everyStepKeepsTheMemoryForm : Obligations.EveryStepKeepsTheMemoryForm := by
  refine ⟨⟨rfl, rfl, rfl, rfl, fun _ _ => rfl⟩, fun _ _ => step_keeps (fun s l h => h.congr rfl rfl rfl rfl)
    (fun _ _ h hv => h.visit (.of_coreStep hv)) (fun _ _ => MemoryInv.host) (fun s h => ?_) fun s h => ?_⟩
  · exact ⟨h.inp_wf, h.out_wf, h.out_wf, rfl, fun _ _ => rfl⟩
  · exact ⟨h.inp_wf, h.out_wf, rfl, rfl, fun _ _ => rfl⟩

/-! ### The output at START (R85) -/

/-- A run begins with the output as it is (log 7). -/
theorem outBeforeInv_start (s : State) : OutBeforeInv (start s) := fun _ _ _ => rfl

/-- A visit writes no output index from the new OUT_COUNT on. -/
theorem OutBeforeInv.visit {s t : State} (h : OutBeforeInv s) (hv : coreStep s = .next t) : OutBeforeInv t := by
  intro hbusy i hi
  have hc : s.ctl ≠ .idle := fun hc => by
    rw [coreStep_idle hc] at hv
    cases hv
    exact hbusy hc
  have hbefore := (VisitTo.of_coreStep hv).hostKept.outBefore
  rw [hbefore]
  obtain ⟨hout, hcount⟩ | ⟨-, -, hcount, hold⟩ := writesInOrder_coreStep hv
  · rw [outByte, hout]
    exact h hc i (hcount ▸ hi)
  · rw [hold i (by omega)]
    exact h hc i (by omega)

/-- While BUSY the host leaves the output alone (R182). -/
theorem OutBeforeInv.host {s t : State} (h : OutBeforeInv s) (ht : HostFrame s t) : OutBeforeInv t := by
  intro hbusy i hi
  have hframe := ht.frame
  have hctl : t.ctl = s.ctl := by rw [hframe]
  have hcount : t.outCount = s.outCount := by rw [hframe]
  have hbefore : t.outBefore = s.outBefore := by rw [hframe]
  obtain ⟨-, hout, -⟩ := ht.busy (hctl ▸ hbusy)
  rw [outByte, hout, hbefore]
  exact h (hctl ▸ hbusy) i (hcount ▸ hi)

/-- Settles O58: START takes the output as it is, and every step keeps what the run has not reached. -/
theorem unreachedOutputIsAsAtStart : Obligations.UnreachedOutputIsAsAtStart :=
  ⟨outBeforeInv_start, fun _ _ => step_keeps (fun _ _ h => h) (fun _ _ => OutBeforeInv.visit)
    (fun _ _ => OutBeforeInv.host) (fun s _ => outBeforeInv_start s) fun _ _ hbusy => absurd rfl hbusy⟩

/-! ### The interrupt (R55, R192, R220) -/

/-- A visit that ends a run sets DONE (R191, R214). -/
theorem VisitTo.done_of_idle {s t : State} (hv : VisitTo s t) (hbusy : s.ctl ≠ .idle) (hidle : t.ctl = .idle) :
    t.done = true := by
  cases hv with
  | wait hc => exact absurd hc hbusy
  | malformed | full | sentinel | zeroOffset => rfl
  | flag c hc hlt hnext => rcases hnext with rfl | rfl <;> cases hidle
  | header | literal | length | offset => cases hidle
  | copied hc =>
    simp only at hidle
    split at hidle <;> cases hidle

/-- Without DONE there is no interrupt (R55). -/
theorem irq_of_not_done {s : State} (h : s.done = false) : irq s = false := by
  rw [irq, h, Bool.and_false]

/-- Settles O42: DONE comes with the visit that ends the run, and goes when it is cleared or at START. -/
theorem irqFollowsDoneAndIe : Obligations.IrqFollowsDoneAndIe := by
  refine ⟨fun s s0 t hcore hinv hbusy hstep => ?_, fun s v hv => ?_, fun s v hv => ?_, fun s v hc hv => ?_⟩
  · rw [step_of_core hcore] at hstep
    have hvisit := VisitTo.of_coreStep hstep
    have hdone : t.done = true ↔ t.ctl = .idle :=
      ⟨(hinv.visit hvisit).idle_of_done, hvisit.done_of_idle hbusy⟩
    rw [irq, Bool.and_eq_true, hvisit.hostKept.ie, hdone, and_comm]
  · refine ⟨_, hostAction_regWrite_word (by decide) v s, ?_, ?_⟩ <;> rw [writeReg_status, if_pos hv]
    exact irq_of_not_done rfl
  · by_cases hstart : s.ctl = .idle ∧ v.getLsbD 0 = true
    · exact ⟨_, hostAction_start hstart.1 hstart.2, irq_of_not_done rfl⟩
    · refine ⟨_, ctrlWriteWithoutStartSetsOnlyIe s v ((not_and_or.1 hstart).imp_right Bool.eq_false_iff.2), ?_⟩
      rw [irq, hv, Bool.false_and]
  · exact ⟨_, hostAction_start hc hv, irq_of_not_done rfl⟩

end Sys2Proof.Machine

/-! ## A token over its visits (R107, R140, R186) and the bound of a run (R194)

At a token boundary the visits read the token's fields one after another; `afterFields` above is the reader they leave.
Followed to the next boundary they make `wholeToken`, and with it the whole run of R186. Each visit of a run brings a
measure down, which gives the bound. -/

namespace Sys2Proof.Machine

/-! ### The field visits of a token -/

theorem afterRead_withStage (n : BitVec 5) (s : State) (c : Ctl) :
    afterRead n { s with ctl := c } = { afterRead n s with ctl := c } := by
  refine (afterRead_withCtl n s s.rem c).trans ?_
  simp only [afterRead_rem]

theorem readValue_withStage (n : BitVec 5) (s : State) (c : Ctl) : readValue n { s with ctl := c } = readValue n s :=
  readValue_withCtl n s s.rem c

/-- The state at the visit that reads the literal or the length, the flag read. -/
def afterFlag (c : Ctl) (s : State) : State := { afterRead 1 s with ctl := c }

/-- The raw length that comes after the flag. -/
def rawLengthAhead (s : State) : BitVec 4 := (readValue 4 (afterRead 1 s)).setWidth 4

/-- The offset that comes after the raw length. -/
def offsetAhead (s : State) : BitVec 13 := (readValue 13 (afterRead 4 (afterRead 1 s))).setWidth 13

/-- The byte that comes after the flag. -/
def literalAhead (s : State) : Byte := (readValue 8 (afterRead 1 s)).setWidth 8

/-- The state at the offset visit of a token with this raw length. -/
def afterLength (s : State) : State :=
  { afterRead 4 (afterRead 1 s) with rem := matchLength (rawLengthAhead s), ctl := .moff }

theorem exec_lit_afterFlag (b : Byte) (s : State) :
    exec (.lit b) (afterFlag .lit s) = .next { emit b (afterRead 8 (afterRead 1 s)) with ctl := .tok } := by
  rw [exec_lit, afterFlag, afterRead_withStage 8 (afterRead 1 s), emit_withCtl]

theorem exec_endToken_afterFlag (s : State) :
    exec .endToken (afterFlag .mlen s) = .next (finish { afterRead 4 (afterRead 1 s) with sentinel := true }) := by
  rw [exec_endToken, afterFlag, afterRead_withStage 4 (afterRead 1 s)]
  rfl

/-- A format M token at its offset visit, the zero offset too (R155, R158). -/
theorem exec_matchRef_afterLength (raw : BitVec 4) (off : BitVec 13) (s : State) :
    exec (.matchRef raw off) (afterLength s) = .next (applyOffset off
      { afterRead 13 (afterRead 4 (afterRead 1 s)) with rem := matchLength raw, ctl := .moff }) := by
  rw [exec_matchRef, afterLength, afterRead_withCtl 13 (afterRead 4 (afterRead 1 s))]

theorem exec_matchZeroOffset_eq (raw : BitVec 4) (s : State) :
    exec (.matchZeroOffset raw) s = exec (.matchRef raw 0) s := rfl

section
variable {s : State} (hq : Quiet s)
include hq

theorem quiet_afterFlag (c : Ctl) : Quiet (afterFlag c s) := (afterRead_inbox 1 s).trans hq

theorem quiet_afterLength : Quiet (afterLength s) :=
  ((afterRead_inbox 4 _).trans (afterRead_inbox 1 s)).trans hq

/-- After the flag 0 the next step is LIT (R152). -/
theorem step_literal : step (afterFlag .lit s) = exec (.lit (literalAhead s)) (afterFlag .lit s) := by
  rw [step_of_quiet (quiet_afterFlag hq .lit), coreStep_lit rfl, exec_lit, afterFlag,
    readValue_withStage 8 (afterRead 1 s)]
  rfl

/-- After the flag 1 and raw length 15 the next step is END (R153). -/
theorem step_sentinel (hraw : rawLengthAhead s = 15) :
    step (afterFlag .mlen s) = exec .endToken (afterFlag .mlen s) := by
  rw [step_of_quiet (quiet_afterFlag hq .mlen), coreStep_mlen rfl, exec_endToken, if_pos]
  rwa [afterFlag, readValue_withStage 4 (afterRead 1 s)]

/-- Another raw length is consumed, and the offset visit is next (R153). -/
theorem step_length (hraw : rawLengthAhead s ≠ 15) : step (afterFlag .mlen s) = .next (afterLength s) := by
  rw [step_of_quiet (quiet_afterFlag hq .mlen), coreStep_mlen rfl, if_neg]
  · rw [afterFlag, readValue_withStage 4 (afterRead 1 s), afterRead_withStage 4 (afterRead 1 s)]
    rfl
  · rwa [afterFlag, readValue_withStage 4 (afterRead 1 s)]

/-- The offset visit is the format M token with the offset that comes next (R155). -/
theorem step_offset :
    step (afterLength s) = exec (.matchRef (rawLengthAhead s) (offsetAhead s)) (afterLength s) := by
  have hraw : rawLengthOf (afterLength s).rem = rawLengthAhead s := rawLengthOf_matchLength _
  have hoff : (readValue 13 (afterLength s)).setWidth 13 = offsetAhead s :=
    congrArg (BitVec.setWidth 13) (readValue_withCtl 13 (afterRead 4 (afterRead 1 s)) _ _)
  rw [step_of_quiet (quiet_afterLength hq), coreStep_moff rfl, hraw, hoff, exec_matchRef]

variable (hc : s.ctl = .tok) (hlt : s.outCount.toNat < s.declSize.toNat)
include hc hlt

/-- The flag visit (R151). -/
theorem runs_flag : runs 1 s =
    .next (afterFlag (if (readValue 1 s).setWidth 1 = (0 : BitVec 1) then .lit else .mlen) s) :=
  runs_succ_of_next ((step_of_quiet hq).trans
    (coreStep_tok hc fun hle => Nat.not_le.2 hlt (BitVec.le_def.1 hle))) 0

theorem runs_flag_zero (hflag : (readValue 1 s).setWidth 1 = (0 : BitVec 1)) :
    runs 1 s = .next (afterFlag .lit s) := by
  rw [runs_flag hq hc hlt, if_pos hflag]

theorem runs_flag_one (hflag : (readValue 1 s).setWidth 1 ≠ (0 : BitVec 1)) :
    runs 1 s = .next (afterFlag .mlen s) := by
  rw [runs_flag hq hc hlt, if_neg hflag]

/-- The flag and length visits of a format M token (R151, R153). -/
theorem runs_length (hflag : (readValue 1 s).setWidth 1 ≠ (0 : BitVec 1)) (hraw : rawLengthAhead s ≠ 15) :
    runs 2 s = .next (afterLength s) := by
  rw [show 2 = 1 + 1 from rfl, runs_add (runs_flag_one hq hc hlt hflag)]
  exact runs_succ_of_next (step_length hq hraw) 0

end

/-! ### The token that the payload ahead decodes to (R107, R140) -/

/-- The token ahead, in terms of the fields that the visits read. -/
def tokenAhead (s : State) : Instr :=
  if (readValue 1 s).setWidth 1 = (0 : BitVec 1) then .lit (literalAhead s)
  else if rawLengthAhead s = 15 then .endToken
  else if offsetAhead s = 0 then .matchZeroOffset (rawLengthAhead s)
  else .matchRef (rawLengthAhead s) (offsetAhead s)

theorem tokenAhead_of_decode {s : State} {i : Instr} {rest : List Bool} (hinv : ReaderInv s) (hclean : s.inDirty = [])
    (h : decode (nextBits s 18) = .ok (i, rest)) : i = tokenAhead s := by
  rw [decode_nextBits hinv.acc_lt hclean] at h
  unfold tokenAhead
  by_cases hflag : (readValue 1 s).setWidth 1 = (0 : BitVec 1)
  · rw [if_pos hflag] at h ⊢
    cases h
    rfl
  rw [if_neg hflag] at h ⊢
  by_cases hraw : rawLengthAhead s = 15
  · rw [if_pos hraw]
    rw [if_pos (show (readValue 4 (afterRead 1 s)).setWidth 4 = (15 : BitVec 4) from hraw)] at h
    cases h
    rfl
  rw [if_neg hraw]
  rw [if_neg (show ¬ (readValue 4 (afterRead 1 s)).setWidth 4 = (15 : BitVec 4) from hraw)] at h
  cases h
  rfl

/-- The bits behind a token's fields (R140). -/
theorem nextBit_afterFields (i : Instr) {s : State} (hinv : ReaderInv s) (hclean : s.inDirty = []) (j : Nat) :
    nextBit (afterFields i s) j = nextBit s (tokenLength i + j) := by
  have hinv1 := hinv.afterRead (n := 1) (by decide)
  have hclean1 := (afterRead_inDirty 1 s).trans hclean
  have hinv4 := hinv1.afterRead (n := 4) (by decide)
  have hclean4 := (afterRead_inDirty 4 _).trans hclean1
  have flag : ∀ j, nextBit (afterRead 1 s) j = nextBit s (1 + j) :=
    (read_spec (n := 1) (by decide) hinv.acc_lt hclean).2
  have literal : ∀ j, nextBit (afterRead 8 (afterRead 1 s)) j = nextBit (afterRead 1 s) (8 + j) :=
    (read_spec (n := 8) (by decide) hinv1.acc_lt hclean1).2
  have length : ∀ j, nextBit (afterRead 4 (afterRead 1 s)) j = nextBit (afterRead 1 s) (4 + j) :=
    (read_spec (n := 4) (by decide) hinv1.acc_lt hclean1).2
  have offset : ∀ j, nextBit (afterRead 13 (afterRead 4 (afterRead 1 s))) j =
      nextBit (afterRead 4 (afterRead 1 s)) (13 + j) := (read_spec (n := 13) (by decide) hinv4.acc_lt hclean4).2
  cases i <;> simp only [afterFields, flag, literal, length, offset, tokenLength] <;> congr 1 <;> omega

/-- Without a draw a read changes the reader and its reports alone (R89, R136). -/
theorem afterRead_frame_of_clean {s : State} (hclean : s.inDirty = []) (n : BitVec 5) : afterRead n s = { s with
    acc := (afterRead n s).acc, cnt := (afterRead n s).cnt, cursor := (afterRead n s).cursor
    uflow := (afterRead n s).uflow, uflowCount := (afterRead n s).uflowCount } := by
  have h := afterRead_frame n s
  unfold ReaderFrame at h
  rwa [afterRead_draws hclean] at h

/-- What the visits before a token's last field may change. -/
def FieldsFrame (s u : State) : Prop :=
  u = { s with
    acc := u.acc, cnt := u.cnt, cursor := u.cursor, uflow := u.uflow, uflowCount := u.uflowCount
    rem := u.rem, ctl := u.ctl }

theorem fieldsFrame_afterFlag {s : State} (hclean : s.inDirty = []) (c : Ctl) : FieldsFrame s (afterFlag c s) := by
  have h := afterRead_frame_of_clean hclean 1
  unfold FieldsFrame afterFlag
  generalize afterRead 1 s = u at h ⊢
  rw [h]

theorem fieldsFrame_afterLength {s : State} (hclean : s.inDirty = []) : FieldsFrame s (afterLength s) := by
  have h1 := afterRead_frame_of_clean hclean 1
  have h4 := afterRead_frame_of_clean ((afterRead_inDirty 1 s).trans hclean) 4
  unfold FieldsFrame afterLength
  generalize afterRead 4 (afterRead 1 s) = u at h4 ⊢
  rw [h4]
  generalize afterRead 1 s = w at h1 ⊢
  rw [h1]

/-- Control and status registers are no part of the bits ahead. -/
theorem nextBit_withCtl (s : State) (r : BitVec 5) (c : Ctl) (j : Nat) :
    nextBit { s with rem := r, ctl := c } j = nextBit s j := rfl

theorem nextBit_finishAtSentinel (s : State) (j : Nat) : nextBit (finish { s with sentinel := true }) j = nextBit s j :=
  rfl

/-- An emission and the way back to the token boundary leave the reader. -/
theorem nextBit_emitToTok (b : Byte) (s : State) (j : Nat) : nextBit { emit b s with ctl := .tok } j = nextBit s j :=
  nextBit_emit b s j

/-- Applying an offset leaves the reader. -/
theorem nextBit_applyOffset (off : BitVec 13) (s : State) (j : Nat) : nextBit (applyOffset off s) j = nextBit s j := by
  unfold applyOffset
  split <;> rfl

/-- The offset visit of the token ahead, whichever of the two format M tokens it is. -/
theorem step_format_M {s : State} (hq : Quiet s) {i : Instr}
    (hi : i = if offsetAhead s = 0 then .matchZeroOffset (rawLengthAhead s)
      else .matchRef (rawLengthAhead s) (offsetAhead s)) :
    step (afterLength s) = exec i (afterLength s) ∧ ∃ t, exec i (afterLength s) = .next t ∧
      ∀ j, nextBit t j = nextBit (afterFields i s) j := by
  have hexec : exec i (afterLength s) = exec (.matchRef (rawLengthAhead s) (offsetAhead s)) (afterLength s) := by
    rw [hi]
    split
    · next hoff => rw [exec_matchZeroOffset_eq, hoff]
    · rfl
  have hfields : afterFields i s = afterRead 13 (afterRead 4 (afterRead 1 s)) := by
    rw [hi]
    split <;> rfl
  refine ⟨(step_offset hq).trans hexec.symm, _, hexec.trans (exec_matchRef_afterLength _ _ s), fun j => ?_⟩
  rw [nextBit_applyOffset, hfields, nextBit_withCtl]

/-- Settles O26: the token is the one ahead, and the visits before its last field are its flag's and its length's. -/
theorem machineRunsTheTokenOfThePayload : Obligations.MachineRunsTheTokenOfThePayload := by
  intro s i rest hq hc hlt hinv hclean hdecode
  have htoken := tokenAhead_of_decode hinv hclean hdecode
  have hbehind := nextBit_afterFields i hinv hclean
  unfold tokenAhead at htoken
  by_cases hflag : (readValue 1 s).setWidth 1 = (0 : BitVec 1)
  · rw [if_pos hflag] at htoken
    subst htoken
    refine ⟨1, _, _, by decide, by decide, runs_flag_zero hq hc hlt hflag, step_literal hq, exec_lit_afterFlag _ s,
      fun j => ?_, fieldsFrame_afterFlag hclean .lit⟩
    rw [nextBit_emitToTok]
    exact hbehind j
  rw [if_neg hflag] at htoken
  by_cases hraw : rawLengthAhead s = 15
  · rw [if_pos hraw] at htoken
    subst htoken
    refine ⟨1, _, _, by decide, by decide, runs_flag_one hq hc hlt hflag, step_sentinel hq hraw,
      exec_endToken_afterFlag s, fun j => ?_, fieldsFrame_afterFlag hclean .mlen⟩
    rw [nextBit_finishAtSentinel]
    exact hbehind j
  · rw [if_neg hraw] at htoken
    obtain ⟨hstep, t, hexec, hreader⟩ := step_format_M hq htoken
    exact ⟨2, _, t, by decide, by decide, runs_length hq hc hlt hflag hraw, hstep, hexec,
      fun j => (hreader j).trans (hbehind j), fieldsFrame_afterLength hclean⟩

/-! ### The whole run as one function (R186) -/

/-- The copy that a MATCH starts, made by its visits (R157). -/
theorem runs_startCopy {u : State} (hq : Quiet u) (raw : BitVec 4) (src : WinIx) (p : Bool) :
    runs (raw.toNat + 3) { u with rem := matchLength raw, prehist := p, src := src, ctl := .copy } =
      .next { copyBytes (matchLength raw).toNat src { u with prehist := p } with
        src := src + (matchLength raw).setWidth 13, rem := 0, ctl := .tok } := by
  have hlen := matchLength_toNat raw
  have hcopy := copyBytes_withCopy (raw.toNat + 3) src { u with prehist := p } src (matchLength raw) .copy
  have hruns := runs_copy (raw.toNat + 2)
    { u with rem := matchLength raw, prehist := p, src := src, ctl := .copy } hq rfl hlen
  rw [← BitVec.ofNat_toNat, hlen]
  exact hruns.trans (by rw [hcopy])

/-! The loop body of R186 in terms of the fields ahead, for each kind of token. -/

section
variable {s : State}

theorem wholeToken_literal (hflag : (readValue 1 s).setWidth 1 = (0 : BitVec 1)) :
    wholeToken s = { emit (literalAhead s) (afterRead 8 (afterRead 1 s)) with ctl := .tok } := by
  rw [wholeToken_eq]
  exact if_pos hflag

variable (hflag : (readValue 1 s).setWidth 1 ≠ (0 : BitVec 1))
include hflag

theorem wholeToken_sentinel (hraw : rawLengthAhead s = 15) :
    wholeToken s = finish { afterRead 4 (afterRead 1 s) with sentinel := true } := by
  rw [wholeToken_eq]
  exact (if_neg hflag).trans (if_pos hraw)

/-- A format M token applies its offset (R155). -/
theorem wholeToken_offset (hraw : rawLengthAhead s ≠ 15) : wholeToken s =
    let u := afterRead 13 (afterRead 4 (afterRead 1 s))
    if offsetAhead s = 0 then raise .corruptStream { u with rem := matchLength (rawLengthAhead s) }
    else
      { copyBytes (matchLength (rawLengthAhead s)).toNat (matchSource u.wptr (offsetAhead s))
          { u with prehist := u.prehist || beyondHistory (offsetAhead s) u.fill } with
        src := matchSource u.wptr (offsetAhead s) + (matchLength (rawLengthAhead s)).setWidth 13
        rem := 0
        ctl := .tok } := by
  rw [wholeToken_eq]
  exact (if_neg hflag).trans (if_neg hraw)

end

/-- The steps from the offset visit on make the rest of the loop body. -/
theorem exists_runs_offset {u t : State} (hq : Quiet u) (raw : BitVec 4) (off : BitVec 13)
    (ht : t = applyOffset off { u with rem := matchLength raw, ctl := .moff }) :
    ∃ k, runs k t = .next (
      if off = 0 then raise .corruptStream { u with rem := matchLength raw }
      else
        { copyBytes (matchLength raw).toNat (matchSource u.wptr off)
            { u with prehist := u.prehist || beyondHistory off u.fill } with
          src := matchSource u.wptr off + (matchLength raw).setWidth 13
          rem := 0
          ctl := .tok }) := by
  subst ht
  unfold applyOffset
  by_cases hoff : off = 0
  · rw [if_pos hoff, if_pos hoff]
    exact ⟨0, runs_zero _⟩
  · rw [if_neg hoff, if_neg hoff]
    exact ⟨_, runs_startCopy hq raw _ _⟩

theorem wholeToken_inbox (s : State) : (wholeToken s).inbox = s.inbox := by
  rw [wholeToken_eq]
  simp only
  split
  · simp
  split
  · simp
  split <;> simp

/-- At a token boundary below the declared size some number of steps makes the loop body of R186. -/
theorem exists_runs_wholeToken {s : State} (hq : Quiet s) (hc : s.ctl = .tok)
    (hlt : s.outCount.toNat < s.declSize.toNat) : ∃ k, runs k s = .next (wholeToken s) := by
  by_cases hflag : (readValue 1 s).setWidth 1 = (0 : BitVec 1)
  · have hstep := (step_literal hq).trans (exec_lit_afterFlag _ s)
    rw [wholeToken_literal hflag]
    exact ⟨1 + 1, (runs_add (runs_flag_zero hq hc hlt hflag)).trans (runs_succ_of_next hstep 0)⟩
  by_cases hraw : rawLengthAhead s = 15
  · have hstep := (step_sentinel hq hraw).trans (exec_endToken_afterFlag s)
    rw [wholeToken_sentinel hflag hraw]
    exact ⟨1 + 1, (runs_add (runs_flag_one hq hc hlt hflag)).trans (runs_succ_of_next hstep 0)⟩
  · have hstep := (step_offset hq).trans (exec_matchRef_afterLength _ _ s)
    have hq3 : Quiet (afterRead 13 (afterRead 4 (afterRead 1 s))) :=
      (afterRead_inbox 13 _).trans (quiet_afterLength hq)
    obtain ⟨k, hk⟩ := exists_runs_offset hq3 (rawLengthAhead s) (offsetAhead s) rfl
    rw [wholeToken_offset hflag hraw]
    exact ⟨2 + (k + 1), (runs_add (runs_length hq hc hlt hflag hraw)).trans ((runs_succ_of_next hstep k).trans hk)⟩

/-- The decode loop from a token boundary, or from the end of a run, is made by some number of steps. -/
theorem exists_runs_decodeLoop (fuel : Nat) {s : State} (hq : Quiet s) : ∃ k, runs k s = .next (decodeLoop fuel s) := by
  induction fuel generalizing s with
  | zero => exact ⟨0, runs_zero s⟩
  | succ fuel ih =>
    unfold decodeLoop
    split
    · next hc =>
      split
      · next hlt =>
        obtain ⟨k, hk⟩ := exists_runs_wholeToken hq hc (BitVec.lt_def.1 hlt)
        obtain ⟨m, hm⟩ := ih (s := wholeToken s) ((wholeToken_inbox s).trans hq)
        exact ⟨k + m, (runs_add hk).trans hm⟩
      · next hge =>
        refine ⟨1, runs_succ_of_next ((step_of_quiet hq).trans (coreStep_tok_of_le hc ?_)) 0⟩
        exact BitVec.le_def.2 (Nat.not_lt.1 fun hlt => hge (BitVec.lt_def.2 hlt))
    · exact ⟨0, runs_zero s⟩

/-- Settles O54: one step parses the header, and the steps after it make the decode loop. -/
theorem visitsMakeTheWholeRun : Obligations.VisitsMakeTheWholeRun := by
  intro s s1 fuel hq hc hheader
  have hstep : step s = .next s1 := by rw [step_of_quiet hq, coreStep_hdr hc, hheader]
  have hq1 : Quiet s1 := by
    rw [step_of_quiet hq] at hstep
    exact (VisitTo.of_coreStep hstep).hostKept.inbox.trans hq
  obtain ⟨k, hk⟩ := exists_runs_decodeLoop fuel hq1
  exact ⟨k + 1, (runs_succ_of_next hstep k).trans hk⟩

/-! ### The bound of a run (R194) -/

/-- The output bytes that the budget still allows. -/
def budgetLeft (s : State) : Nat := s.declSize.toNat - s.outCount.toNat

/-- A bound on the visits left in a run past its header: a token takes at most 20, and counts at least one byte. In a
copy each visit counts a byte until the budget is used up. -/
def visitsLeft (s : State) : Nat :=
  match s.ctl with
  | .idle => 0
  | .hdr => 0
  | .tok => 20 * budgetLeft s + 1
  | .lit => 20 * budgetLeft s
  | .mlen => 20 * budgetLeft s
  | .moff => 20 * budgetLeft s - 1
  | .copy => s.rem.toNat + 20 * (budgetLeft s - s.rem.toNat) + 1

/-- An emission takes one byte of the budget, if there is one (R150). -/
theorem budgetLeft_emit (b : Byte) (s : State) : budgetLeft (emit b s) = budgetLeft s - 1 := by
  unfold budgetLeft
  rw [emit_declSize, emit_outCount_toNat]
  split <;> omega

@[simp] theorem budgetLeft_afterRead (n : BitVec 5) (s : State) : budgetLeft (afterRead n s) = budgetLeft s := by
  simp [budgetLeft]

/-- Below the declared size a byte of the budget is left. -/
theorem budgetLeft_pos {s : State} (h : s.outCount.toNat < s.declSize.toNat) : 0 < budgetLeft s := Nat.sub_pos_of_lt h

section
variable {s : State}
theorem visitsLeft_of_tok (hc : s.ctl = .tok) : visitsLeft s = 20 * budgetLeft s + 1 := by simp only [visitsLeft, hc]
theorem visitsLeft_of_lit (hc : s.ctl = .lit) : visitsLeft s = 20 * budgetLeft s := by simp only [visitsLeft, hc]
theorem visitsLeft_of_mlen (hc : s.ctl = .mlen) : visitsLeft s = 20 * budgetLeft s := by simp only [visitsLeft, hc]
theorem visitsLeft_of_moff (hc : s.ctl = .moff) : visitsLeft s = 20 * budgetLeft s - 1 := by
  simp only [visitsLeft, hc]
theorem visitsLeft_of_copy (hc : s.ctl = .copy) :
    visitsLeft s = s.rem.toNat + 20 * (budgetLeft s - s.rem.toNat) + 1 := by simp only [visitsLeft, hc]
theorem visitsLeft_of_idle (hc : s.ctl = .idle) : visitsLeft s = 0 := by simp only [visitsLeft, hc]
end

/-- A visit of a run past its header takes one off the bound. -/
theorem visitsLeft_lt {s t : State} (h : RunInv s) (hv : VisitTo s t) (hbusy : s.ctl ≠ .idle) (hhdr : s.ctl ≠ .hdr) :
    visitsLeft t < visitsLeft s := by
  have hread := fun n => budgetLeft_afterRead n s
  have budget := fun hc => budgetLeft_pos (h.budget hc)
  cases hv with
  | wait hc => exact absurd hc hbusy
  | malformed hc hlen => exact absurd hc hhdr
  | header hc hlen hcap => exact absurd hc hhdr
  | full hc hle =>
    rw [visitsLeft_of_tok hc, visitsLeft_of_idle rfl]
    omega
  | flag c hc hlt hnext =>
    have hnow : budgetLeft { afterRead 1 s with ctl := c } = budgetLeft s := hread 1
    have hpos := budgetLeft_pos hlt
    rw [visitsLeft_of_tok hc]
    obtain rfl | rfl := hnext
    · rw [visitsLeft_of_lit rfl, hnow]
      omega
    · rw [visitsLeft_of_mlen rfl, hnow]
      omega
  | literal b hc =>
    have hnow : budgetLeft { emit b (afterRead 8 s) with ctl := .tok } = budgetLeft s - 1 :=
      (budgetLeft_emit b (afterRead 8 s)).trans (congrArg (· - 1) (hread 8))
    have hpos := budget (.inl hc)
    rw [visitsLeft_of_lit hc, visitsLeft_of_tok rfl, hnow]
    omega
  | sentinel hc =>
    have hpos := budget (.inr (.inl hc))
    rw [visitsLeft_of_mlen hc, visitsLeft_of_idle rfl]
    omega
  | length raw hc hraw =>
    have hnow : budgetLeft { afterRead 4 s with rem := matchLength raw, ctl := .moff } = budgetLeft s := hread 4
    have hpos := budget (.inr (.inl hc))
    rw [visitsLeft_of_mlen hc, visitsLeft_of_moff rfl, hnow]
    omega
  | zeroOffset hc =>
    have hpos := budget (.inr (.inr hc))
    rw [visitsLeft_of_moff hc, visitsLeft_of_idle rfl]
    omega
  | offset off hc =>
    have hpos := budget (.inr (.inr hc))
    have hrem := matchLength_rawLengthOf (h.rem_moff hc) (h.rem_le.trans (by decide))
    have hthree := h.rem_moff hc
    have hmost := h.rem_le
    rw [visitsLeft_of_moff hc, visitsLeft_of_copy rfl, hrem]
    have hnow : budgetLeft { afterRead 13 s with
      rem := s.rem, prehist := s.prehist || beyondHistory off s.fill, src := matchSource s.wptr off
      ctl := .copy } = budgetLeft s := hread 13
    rw [hnow]
    simp only
    omega
  | copied hc =>
    have hnow : budgetLeft { emit (winRead s s.src) s with
      src := s.src + 1, rem := s.rem - 1, ctl := if s.rem = 1 then .tok else .copy } = budgetLeft s - 1 :=
      budgetLeft_emit _ s
    have hone := h.rem_copy hc
    have hdown : (s.rem - 1).toNat = s.rem.toNat - 1 := by bv_omega
    rw [visitsLeft_of_copy hc]
    by_cases hlast : s.rem = 1
    · have hrem : s.rem.toNat = 1 := congrArg BitVec.toNat hlast
      rw [visitsLeft_of_tok (if_pos hlast), hnow]
      omega
    · rw [visitsLeft_of_copy (if_neg hlast), hnow]
      simp only [hdown]
      omega

/-- No visit goes back to the header. -/
theorem VisitTo.ne_hdr {s t : State} (hv : VisitTo s t) (hhdr : s.ctl ≠ .hdr) : t.ctl ≠ .hdr := by
  cases hv with
  | wait => exact hhdr
  | flag c hc hlt hnext => rcases hnext with rfl | rfl <;> nofun
  | copied =>
    simp only
    split <;> nofun
  | _ => nofun

/-- Past its header a run ends within its bound, with DONE. -/
theorem exists_runs_idle {s : State} (hq : Quiet s) (h : RunInv s) (hhdr : s.ctl ≠ .hdr)
    (hdone : s.ctl = .idle → s.done = true) :
    ∃ k t, k ≤ visitsLeft s ∧ runs k s = .next t ∧ t.ctl = .idle ∧ t.done = true := by
  induction hm : visitsLeft s using Nat.strong_induction_on generalizing s with
  | _ m ih =>
    by_cases hidle : s.ctl = .idle
    · exact ⟨0, s, Nat.zero_le m, runs_zero s, hidle, hdone hidle⟩
    obtain ⟨u, hu⟩ := coreStep_next_of_ne_hdr hhdr
    have hv := VisitTo.of_coreStep hu
    have hless := visitsLeft_lt h hv hidle hhdr
    obtain ⟨k, t, hk, hruns, hend⟩ := ih (visitsLeft u) (by omega) (hv.hostKept.inbox.trans hq) (h.visit hv)
      (hv.ne_hdr hhdr) (hv.done_of_idle hidle) rfl
    exact ⟨k + 1, t, by omega, (runs_succ_of_next ((step_of_quiet hq).trans hu) k).trans hruns, hend⟩

/-- Settles O52: the header parse is one step, and the bound of what follows is 20 visits for each byte and one more. -/
theorem everyRunEnds : Obligations.EveryRunEnds := by
  intro s hq h hc hcap
  have hstep := (step_of_quiet hq).trans (coreStep_hdr hc)
  obtain ⟨-, hparse⟩ | ⟨-, hbig, -⟩ | ⟨hlen, -, hparse⟩ := headerVisit_cases s
  · rw [hparse] at hstep
    exact ⟨1, _, by omega, runs_succ_of_next hstep 0, rfl, rfl⟩
  · exact absurd hcap (Nat.not_le.2 hbig)
  · rw [hparse] at hstep
    have hinv := h.header hc hlen (readHeader s).1 (readHeader s).2.draws
    obtain ⟨k, t, hk, hruns, hend⟩ := exists_runs_idle (s := { s with
      declSize := (readHeader s).1, cursor := 8, ctl := .tok, draws := (readHeader s).2.draws }) hq hinv nofun nofun
    refine ⟨k + 1, t, ?_, (runs_succ_of_next hstep k).trans hruns, hend⟩
    rw [visitsLeft_of_tok rfl] at hk
    have hbudget := Nat.sub_le (readHeader s).1.toNat s.outCount.toNat
    simp only [budgetLeft] at hk
    omega

end Sys2Proof.Machine
